-- ==== Sys2Proof/Word.lean ====
section
/-! DEFINITION. The words of the core and the small types every other file speaks of: bytes, blocks, round subkeys,
engines, directions, the fields of a command word. -/

namespace Sys2Proof

/-- A byte (rule R11). -/
abbrev Byte := BitVec 8

/-- A Block, "exactly 8 bytes" (rules R6, R15); also the 8 bytes of a sub-key (R21). -/
abbrev Block := Vector Byte 8

/-- One round subkey, 48 bits (rules R6, R22). -/
abbrev RoundKey := BitVec 48

/-- The sixteen round subkeys of one engine in encrypt order (rule R22); position `i - 1` holds subkey `i`. -/
abbrev Schedule := Vector RoundKey 16

/-- The three engines, keyed from K1, K2 and K3 (rules R6, R62, R130). There is no engine 0. -/
inductive Engine where
  | e1
  | e2
  | e3
deriving DecidableEq, Repr

/-- One thing per engine: the shape of `RK` (rule R22) and of `KV` (rule R24). -/
structure PerEngine (α : Type) where
  e1 : α
  e2 : α
  e3 : α
deriving DecidableEq, Repr

/-- The entry of engine `e`. -/
def PerEngine.get {α : Type} (p : PerEngine α) : Engine → α
  | .e1 => p.e1
  | .e2 => p.e2
  | .e3 => p.e3

/-- The same entries, but for engine `e`'s. -/
def PerEngine.set {α : Type} (p : PerEngine α) (e : Engine) (x : α) : PerEngine α :=
  match e with
  | .e1 => ⟨x, p.e2, p.e3⟩
  | .e2 => ⟨p.e1, x, p.e3⟩
  | .e3 => ⟨p.e1, p.e2, x⟩

/-- The direction of a transform (rules R100, R131). -/
inductive Dir where
  | enc
  | dec
deriving DecidableEq, Repr

/-- The three fields of format C8 (rule R60): bits 7:4, 3:2 and 1:0 of a command word. -/
structure CmdFields where
  op : BitVec 4
  z : BitVec 2
  e : BitVec 2
deriving DecidableEq, Repr

end Sys2Proof
end

