-- ==== Sys2Proof/Syntax.lean ====
section
/-! DEFINITION. The five commands of rule R61. The opcode table has one row per assigned WORD (rule R61): its eleven rows
are exactly the eleven values of this type, the three rows of `KSX`, `DESE` and `DESD` being the three engines
(assumption 17). -/

namespace Sys2Proof

/-- The command set of the core (rules R61, R163). -/
inductive Instr where
  /-- `KSX e`, words 0x11 to 0x13: expand the key schedule of engine `e` (rule R91). -/
  | ksx (e : Engine)
  /-- `DESE e`, words 0x21 to 0x23: single-DES encrypt of one block (rule R116). -/
  | dese (e : Engine)
  /-- `DESD e`, words 0x31 to 0x33: single-DES decrypt of one block (rule R117). -/
  | desd (e : Engine)
  /-- `ECBD`, word 0x40: Triple-DES ECB decrypt of the buffer (rule R135). -/
  | ecbd
  /-- `ECBE`, word 0x50: Triple-DES ECB encrypt of the buffer (rule R136). -/
  | ecbe
deriving DecidableEq, Repr

end Sys2Proof
end

