-- ==== Sys2Proof/WellFormed.lean ====
section
/-! DEFINITION. Which fields of a command word are assigned (rules R60, R61, R64), with a name for each way a word can be
illegal. A value of `Instr` cannot be ill-formed, since `Engine` has no fourth value: what can be ill-formed is the word. -/

namespace Sys2Proof

/-- Why a command word is illegal: the four groups of rule R64. All four raise the same exception (rule R151). -/
inductive Illegal where
  /-- `z != 00`, whatever the other fields hold. -/
  | reservedBits
  /-- `op` is `0000` or one of `0110` to `1111`. -/
  | unassignedOp
  /-- `op` takes an engine and `e = 00`, which names none (rule R62). -/
  | noEngine
  /-- `op` takes no engine and `e != 00`. -/
  | engineNotTaken
deriving DecidableEq, Repr

/-- The operations that take an engine: `0001`, `0010`, `0011` (rule R61). -/
def CmdFields.takesEngine (f : CmdFields) : Bool :=
  f.op == 1 || f.op == 2 || f.op == 3

/-- The operations that take none: `0100`, `0101` (rule R61). -/
def CmdFields.takesNone (f : CmdFields) : Bool :=
  f.op == 4 || f.op == 5

/-- The first of rule R64's groups that the fields fall under, if any. -/
def CmdFields.illegal (f : CmdFields) : Option Illegal :=
  if f.z ≠ 0 then some .reservedBits
  else if f.takesEngine then (if f.e = 0 then some .noEngine else none)
  else if f.takesNone then (if f.e = 0 then none else some .engineNotTaken)
  else some .unassignedOp

/-- The fields of an assigned word (rule R61). -/
def CmdFields.wellFormed (f : CmdFields) : Bool :=
  f.illegal.isNone

end Sys2Proof
end

