-- ==== Sys2Proof/Decode.lean ====
section
/-! DEFINITION. The decoder of command words, total on the 256 words of rule R64, and the encoder, both written from the
tables of rules R60 and R61. -/

namespace Sys2Proof

/-- Format C8 taken apart (rule R60): `op` is bits 7:4, `z` bits 3:2, `e` bits 1:0. -/
def unpack (w : Byte) : CmdFields :=
  ⟨w.extractLsb' 4 4, w.extractLsb' 2 2, w.extractLsb' 0 2⟩

/-- Format C8 put together (rule R60). -/
def pack (f : CmdFields) : Byte :=
  f.op ++ f.z ++ f.e

/-- The engine a field `e` names (rule R62): `00` names none. -/
def engineOf (e : BitVec 2) : Option Engine :=
  match e.toNat with
  | 1 => some .e1
  | 2 => some .e2
  | 3 => some .e3
  | _ => none

/-- The field `e` of an engine (rule R62). -/
def engineField : Engine → BitVec 2
  | .e1 => 0b01
  | .e2 => 0b10
  | .e3 => 0b11

/-- An operation that takes an engine. -/
def withEngine (e : BitVec 2) (k : Engine → Instr) : Except Illegal Instr :=
  match engineOf e with
  | some g => .ok (k g)
  | none => .error .noEngine

/-- An operation that takes no engine. -/
def withoutEngine (e : BitVec 2) (i : Instr) : Except Illegal Instr :=
  if e = 0 then .ok i else .error .engineNotTaken

/-- The decoder of rules R61 and R64: 11 words decode to a command, 245 are rejected by name. -/
def decode (w : Byte) : Except Illegal Instr :=
  let f := unpack w
  if f.z ≠ 0 then .error .reservedBits
  else
    match f.op.toNat with
    | 1 => withEngine f.e .ksx
    | 2 => withEngine f.e .dese
    | 3 => withEngine f.e .desd
    | 4 => withoutEngine f.e .ecbd
    | 5 => withoutEngine f.e .ecbe
    | _ => .error .unassignedOp

/-- The fields of each command (rule R61). -/
def instrFields : Instr → CmdFields
  | .ksx e => ⟨0b0001, 0, engineField e⟩
  | .dese e => ⟨0b0010, 0, engineField e⟩
  | .desd e => ⟨0b0011, 0, engineField e⟩
  | .ecbd => ⟨0b0100, 0, 0⟩
  | .ecbe => ⟨0b0101, 0, 0⟩

/-- The word of each command (rule R61). -/
def encode (i : Instr) : Byte :=
  pack (instrFields i)

/-- The instruction in the low `nbits` bits of `w`, as the opcode table numbers them. A command is one byte (rule R65):
only the first byte is read (assumption 20). -/
def decodeTableWord (nbits w : Nat) : Option Instr :=
  match decode (BitVec.ofNat 8 (w % 2 ^ nbits)) with
  | .ok i => some i
  | .error _ => none

end Sys2Proof
end

