-- ==== Sys2Proof/Config.lean ====
section
/-! DEFINITION. What an instance of the core fixes once (rule R7) and the one free value of the model (rule R33). -/

namespace Sys2Proof

/-- The open parameters of rule R7. `BUF_MAX` is "a multiple of 8, at most 2^32 − 8": it is held as its number of
8-byte blocks, below 2^29, so that no other value can be written down. -/
structure Config where
  masterKey : Vector Byte 24
  bufBlocks : Fin 536870912
deriving DecidableEq, Repr, Inhabited

/-- `BUF_MAX`, the capacity in bytes of the input and of the output buffer (rule R7). -/
def Config.bufMax (c : Config) : Nat :=
  8 * c.bufBlocks.val

/-- The configuration of the machine after power-on: OPEN (rule R7), so it has no body and no proof can see it
(assumption 1). -/
opaque Config.chip : Config

/-- What round-subkey register `i + 1` of engine `e` holds after reset: "unspecified" (rule R33), a free value
(assumption 3). -/
opaque Config.rkAtReset : Engine → Fin 16 → RoundKey

end Sys2Proof
end

