-- ==== Sys2Proof/Machine/State.lean ====
section
/-! DEFINITION. The state of one core instance (10_state.md), the host's transactions (rule R50), the reasons a step can
stop, and the state after reset (rules R33, R180). -/

namespace Sys2Proof.Machine

/-- A byte space (rules R31, R42): the bytes that hold a value, addresses strictly rising. An address that is not listed
holds no value (rule R55; assumptions 7 and 8). -/
abbrev Memory := List Host.Cell

/-- The legal values of `ERR` (rules R25, R26, R150): codes 5 to 15 never occur (assumption 11). -/
inductive ErrCode where
  /-- Code 0: the last command completed. -/
  | none
  /-- Code 1, rule R153. -/
  | sizeError
  /-- Code 2, rule R154. -/
  | contractViolation
  /-- Code 3, rule R152. -/
  | capacityError
  /-- Code 4, rule R151. -/
  | illegalCommand
deriving DecidableEq, Repr

/-- The eight host transactions of rule R50. -/
inductive HostOp where
  /-- `H_RESET`. -/
  | reset
  /-- `H_WR_IN(a, b)`. -/
  | wrIn (a : Nat) (b : Byte)
  /-- `H_RD_IN(a)`. -/
  | rdIn (a : Nat)
  /-- `H_WR_LEN(n)`. -/
  | wrLen (n : BitVec 32)
  /-- `H_RD_LEN`. -/
  | rdLen
  /-- `H_CMD(w)`. -/
  | cmd (w : Byte)
  /-- `H_RD_STATUS`. -/
  | rdStatus
  /-- `H_RD_OUT(a)`. -/
  | rdOut (a : Nat)
deriving DecidableEq, Repr

/-- What an `H_RD_*` transaction returns (rule R50). -/
inductive HostValue where
  /-- The byte of `H_RD_IN` or `H_RD_OUT`. -/
  | byte (b : Byte)
  /-- The 32 bits of `H_RD_LEN`. -/
  | len (n : BitVec 32)
  /-- The 8 bits of `H_RD_STATUS`. -/
  | status (v : Byte)
deriving DecidableEq, Repr

/-- The reasons the model stops where the spec gives no result (rule R55). No architectural exception is among them:
those are next states (rule R157). -/
inductive Fault where
  /-- Raised by a data command or by `H_RD_IN` that needs the byte `IN[a]`, which nothing has written since reset
  ("never as a read of zero", rule R55). Safe: the model stops where a chip goes on with some byte (assumption 7). -/
  | unwrittenIn (a : Nat)
  /-- Raised by `H_RD_OUT` of the byte `OUT[a]`, which no command has written since reset (rule R55). Safe (assumption
  8). -/
  | unwrittenOut (a : Nat)
deriving DecidableEq, Repr

/-- The reasons the model refuses a step. -/
inductive Refusal where
  /-- An instruction without a meaning in `exec`. No arm raises it. Safe. -/
  | notModelled (mnemonic : String)
  /-- Raised by `H_WR_IN`, `H_RD_IN` and `H_RD_OUT` at `a >= BUF_MAX`: "the transaction does not exist (a model refuses
  it)" (rule R50). Safe (assumption 9). -/
  | noSuchByte (a : Nat)
deriving DecidableEq, Repr

/-- The state of one core instance (rules R20 to R31), with three fields of the model's own: `cfg`, `pending`,
`reads`. -/
structure State where
  /-- The model's own: the configuration of this instance, constant (rule R7; assumption 1). -/
  cfg : Config
  /-- `MK[0..23]` (rule R20). -/
  mkReg : Vector Byte 24
  /-- `RK[e][1..16]` (rule R22). -/
  rk : PerEngine Schedule
  /-- `KV[e]` (rule R24). -/
  kv : PerEngine Bool
  /-- `ERR` (rule R25). -/
  err : ErrCode
  /-- `LEN` (rule R27). -/
  len : BitVec 32
  /-- The space `IN` (rules R31, R42). -/
  inBuf : Memory
  /-- The space `OUT` (rules R31, R42). -/
  outBuf : Memory
  /-- The model's own: the transactions the host has not performed yet, oldest first (rules R50, R51; assumption 4). -/
  pending : List HostOp
  /-- The model's own: the values returned by the `H_RD_*` transactions so far, oldest first (rule R186;
  assumption 5). -/
  reads : List HostValue
deriving DecidableEq, Repr

/-- The sixteen registers of engine `e` after reset (rule R33: unspecified; assumption 3). -/
def scheduleAtReset (e : Engine) : Schedule :=
  Vector.ofFn (Config.rkAtReset e)

/-- The state of an instance of configuration `c` right after reset (rules R33, R180), with no transaction pending. -/
def State.resetOf (c : Config) : State where
  cfg := c
  mkReg := c.masterKey
  rk := ⟨scheduleAtReset .e1, scheduleAtReset .e2, scheduleAtReset .e3⟩
  kv := ⟨false, false, false⟩
  err := .none
  len := 0
  inBuf := []
  outBuf := []
  pending := []
  reads := []

/-- The machine right after power-on, which is the reset event (rules R33, R180). -/
def State.reset : State :=
  State.resetOf Config.chip

end Sys2Proof.Machine
end

