-- ==== Sys2Proof/Machine/Ops.lean ====
section
/-! DEFINITION. The named operations over the byte spaces and the registers, and taking an exception (rule R157). -/

namespace Sys2Proof.Machine

/-- What an address holds: the byte listed for it, and no value where none is listed (rule R55). -/
def Memory.read : Memory → Nat → Option Byte
  | [], _ => none
  | (x, y) :: t, a => if x = a then some y else Memory.read t a

/-- The canonical form of a byte space: addresses strictly rising. An unlisted address holds no value, so no entry can
equal what an unlisted address reads as. -/
def Memory.wf : Memory → Bool
  | [] => true
  | [_] => true
  | c :: d :: t => decide (c.1 < d.1) && Memory.wf (d :: t)

/-- Every listed address is below `n` (rule R42: `0 <= a < BUF_MAX`). -/
def Memory.below (n : Nat) (m : Memory) : Bool :=
  m.all fun c => decide (c.1 < n)

/-- `M[a] <- b`, keeping the canonical form. -/
def Memory.write : Memory → Nat → Byte → Memory
  | [], a, b => [(a, b)]
  | (x, y) :: t, a, b =>
    if a < x then (a, b) :: (x, y) :: t
    else if a = x then (a, b) :: t
    else (x, y) :: Memory.write t a b

/-- `MemRead(M, a, n)` (rules R12, R44): the `n` bytes from `a` on, lowest address first, or the first address among
them that holds no value (rule R55). -/
def Memory.readBytes (m : Memory) (a : Nat) : (n : Nat) → Except Nat (Vector Byte n)
  | 0 => .ok #v[]
  | n + 1 =>
    match Memory.readBytes m a n with
    | .error x => .error x
    | .ok v =>
      match m.read (a + n) with
      | none => .error (a + n)
      | some b => .ok (v.push b)

/-- `MemWrite(M, a, n, s)` (rules R12, R45): writes the sequence from `a` on, lowest address first. -/
def Memory.writeBytes : Memory → Nat → List Byte → Memory
  | m, _, [] => m
  | m, a, b :: bs => Memory.writeBytes (m.write a b) (a + 1) bs

/-- The read of one 8-byte block (rule R44). -/
def Memory.readBlock (m : Memory) (a : Nat) : Except Nat Block :=
  m.readBytes a 8

/-- The write of one 8-byte block (rule R45): `M[a+j] <- b[j]` for `j` in 0..7, lowest address first. -/
def Memory.writeBlock (m : Memory) (a : Nat) (b : Block) : Memory :=
  (((((((m.write a b[0]).write (a + 1) b[1]).write (a + 2) b[2]).write (a + 3) b[3]).write (a + 4) b[4]).write
    (a + 5) b[5]).write (a + 6) b[6]).write (a + 7) b[7]

/-- `BUF_MAX` of this instance (rule R7). -/
def State.bufMax (s : State) : Nat :=
  s.cfg.bufMax

/-- `ERR <- x` (rule R25). -/
def State.setErr (s : State) (x : ErrCode) : State :=
  { s with err := x }

/-- `LEN <- n` (rule R27). -/
def State.setLen (s : State) (n : BitVec 32) : State :=
  { s with len := n }

/-- The space `IN` replaced. -/
def State.setIn (s : State) (m : Memory) : State :=
  { s with inBuf := m }

/-- The space `OUT` replaced. -/
def State.setOut (s : State) (m : Memory) : State :=
  { s with outBuf := m }

/-- `RK[e][1..16] <- k` and `KV[e] <- 1`, the one write of engine `e`'s registers (rules R22, R24). -/
def State.setSchedule (s : State) (e : Engine) (k : Schedule) : State :=
  { s with rk := s.rk.set e k, kv := s.kv.set e true }

/-- The queue of transactions replaced. -/
def State.setPending (s : State) (ts : List HostOp) : State :=
  { s with pending := ts }

/-- A transaction returns the value `v` to the host (rules R50, R186). -/
def State.returns (s : State) (v : HostValue) : State :=
  { s with reads := s.reads ++ [v] }

/-- TAKING AN EXCEPTION (rule R157), the one operation every exception goes through: `ERR` takes the code and nothing
else changes. Nothing is saved, control goes nowhere, and there is no return from it (rule R159): the next command
runs as if the exception had not happened. -/
def raise (x : ErrCode) (s : State) : Host.Outcome State Fault Refusal :=
  .next (s.setErr x)

/-- The end of a command that completes: `ERR <- 0` (rules R25, R150). -/
def complete (s : State) : Host.Outcome State Fault Refusal :=
  .next (s.setErr .none)

/-- The reset event `H_RESET` (rule R180). The configuration, the host's further transactions and the values already
returned are not the core's state: they stay (assumption 14). -/
def State.hReset (s : State) : State :=
  { State.resetOf s.cfg with pending := s.pending, reads := s.reads }

end Sys2Proof.Machine
end

