-- ==== Sys2Proof/Machine/Flags.lean ====
section
/-! DEFINITION. The flags and the status register (rules R24 to R26). The core has no other flag (rule R25). -/

namespace Sys2Proof.Machine

/-- The 4-bit code of `ERR` (rule R150). -/
def errBits : ErrCode → BitVec 4
  | .none => 0
  | .sizeError => 1
  | .contractViolation => 2
  | .capacityError => 3
  | .illegalCommand => 4

/-- `STATUS` (rule R26): `ERR` in bits 3:0, `KV1`, `KV2`, `KV3` in bits 4, 5, 6, bit 7 hard-wired 0. -/
def statusReg (s : State) : Byte :=
  0#1 ++ BitVec.ofBool s.kv.e3 ++ BitVec.ofBool s.kv.e2 ++ BitVec.ofBool s.kv.e1 ++ errBits s.err

end Sys2Proof.Machine
end

