-- ==== Sys2Proof/Machine/Bits.lean ====
section
/-! DEFINITION. The notation of 00_scope.md section 4 as functions: DES bit numbering (R8), permutation by table (R9),
rotation (R10), byte sequences (R11). -/

namespace Sys2Proof.Machine

/-- `v{k}` (rule R8): DES numbering, `v{1}` the most significant bit, `v{k} = v[W - k]`. -/
def desBit {w : Nat} (v : BitVec w) (k : Nat) : Bool :=
  v.getLsbD (w - k)

/-- `v{p .. p+n-1}` (rule R8): the `n` bits of `v` from DES position `p` on. -/
def desSlice {w : Nat} (v : BitVec w) (p n : Nat) : BitVec n :=
  v.extractLsb' (w + 1 - p - n) n

/-- The number whose binary digits are `v{t}` for the entries `t` of the table, the first entry leftmost. -/
def permNat {w : Nat} (t : List Nat) (v : BitVec w) : Nat :=
  t.foldl (fun acc p => 2 * acc + (desBit v p).toNat) 0

/-- `Perm(T, v)` (rule R9): output bit `j` is input bit `T[j]`; `n` is the length of the table. -/
def perm {w : Nat} (n : Nat) (t : List Nat) (v : BitVec w) : BitVec n :=
  BitVec.ofNat n (permNat t v)

/-- `rotl28(x, s)` (rule R10). -/
def rotl28 (x : BitVec 28) (s : Nat) : BitVec 28 :=
  x.rotateLeft s

/-- `BE(b[0..n-1])` (rules R11, R40): byte 0 is the most significant. -/
def be {n : Nat} (b : Vector Byte n) : BitVec (8 * n) :=
  BitVec.ofNat (8 * n) (b.toList.foldl (fun acc x => 256 * acc + x.toNat) 0)

/-- `BYTES_n(v)` (rules R11, R40, R41): byte `j` is `v{8j+1 .. 8j+8}`. -/
def bytesOf (n : Nat) (v : BitVec (8 * n)) : Vector Byte n :=
  Vector.ofFn fun j : Fin n => desSlice v (8 * j.val + 1) 8

end Sys2Proof.Machine
end

