-- ==== Sys2Proof/Machine/Operands.lean ====
section
/-! DEFINITION. The implicit operands of the commands (rule R63): the sub-keys (R21) and the length with its checks
(R46, R152 to R154, R156). -/

namespace Sys2Proof.Machine

/-- `K_1 = MK[0..7]`, `K_2 = MK[8..15]`, `K_3 = MK[16..23]` (rules R21, R66): where `K_e` starts in `MK`. -/
def subKeyBase : Engine → Fin 17
  | .e1 => 0
  | .e2 => 8
  | .e3 => 16

/-- `K_e`, the view of `MK` (rule R21). -/
def subKey (mk : Vector Byte 24) (e : Engine) : Block :=
  Vector.ofFn fun j : Fin 8 => mk[(subKeyBase e).val + j.val]

/-- The two length rules of the data commands (rule R46). -/
inductive LenRule where
  /-- `DESE`, `DESD`: `LEN` must be exactly 8 (rule R154). -/
  | oneBlock
  /-- `ECBD`, `ECBE`: `LEN mod 8` must be 0 (rule R153). -/
  | wholeBlocks
deriving DecidableEq, Repr

/-- The exception a data command raises on its length, by the priority of rule R156: capacity (R152) first, then
contract (R154) or size (R153). -/
def checkLen (r : LenRule) (s : State) : Option ErrCode :=
  if s.bufMax < s.len.toNat then some .capacityError
  else
    match r with
    | .oneBlock => if s.len.toNat = 8 then none else some .contractViolation
    | .wholeBlocks => if s.len.toNat % 8 = 0 then none else some .sizeError

/-- The number of blocks of the buffer (rule R67). -/
def blockCount (s : State) : Nat :=
  s.len.toNat / 8

end Sys2Proof.Machine
end

