-- ==== Sys2Proof/Machine/KeySchedule.lean ====
section
/-! DEFINITION. The key schedule (40_key_schedule.md): the pure function `KS`, the implicit derivation, the command
`KSX`. The tables are printed as the spec prints them, read row by row (rule R68). -/

namespace Sys2Proof.Machine

/-- `PC1[1..56]` (rule R81). -/
def pc1Table : List Nat :=
  [57, 49, 41, 33, 25, 17, 9,
   1, 58, 50, 42, 34, 26, 18,
   10, 2, 59, 51, 43, 35, 27,
   19, 11, 3, 60, 52, 44, 36,
   63, 55, 47, 39, 31, 23, 15,
   7, 62, 54, 46, 38, 30, 22,
   14, 6, 61, 53, 45, 37, 29,
   21, 13, 5, 28, 20, 12, 4]

/-- `PC2[1..48]` (rule R85). -/
def pc2Table : List Nat :=
  [14, 17, 11, 24, 1, 5,
   3, 28, 15, 6, 21, 10,
   23, 19, 12, 4, 26, 8,
   16, 7, 27, 20, 13, 2,
   41, 52, 31, 37, 47, 55,
   30, 40, 51, 45, 33, 48,
   44, 49, 39, 56, 34, 53,
   46, 42, 50, 36, 29, 32]

/-- `PC1f(k)` (rule R81): the eight parity positions do not occur in the table (rule R87). -/
def pc1 (k : BitVec 64) : BitVec 56 :=
  perm 56 pc1Table k

/-- `PC2f(cd)` (rule R85). -/
def pc2 (cd : BitVec 56) : BitVec 48 :=
  perm 48 pc2Table cd

/-- `ROT(i)` (rule R83): 1 in rounds 1, 2, 9 and 16, else 2. -/
def rot (i : Nat) : Nat :=
  if i = 1 ∨ i = 2 ∨ i = 9 ∨ i = 16 then 1 else 2

/-- `CD(k, i)`, the halves `(C_i, D_i)` (rules R82, R84); each half rotates on its own. -/
def cd (k : BitVec 64) : Nat → BitVec 28 × BitVec 28
  | 0 => (desSlice (pc1 k) 1 28, desSlice (pc1 k) 29 28)
  | i + 1 => (rotl28 (cd k i).1 (rot (i + 1)), rotl28 (cd k i).2 (rot (i + 1)))

/-- `KS` on the 64-bit form of a key: subkey `i` from `C_i ‖ D_i` (rule R86). -/
def ksSubkey (k : BitVec 64) (i : Nat) : RoundKey :=
  pc2 ((cd k i).1 ++ (cd k i).2)

/-- `KS(key)[1..16]` (rule R86). -/
def ks (key : Block) : Schedule :=
  Vector.ofFn fun i : Fin 16 => ksSubkey (be key) (i.val + 1)

/-- The write every derivation makes: `RK[e][1..16] <- KS(K_e)`, `KV[e] <- 1` (rules R91, R93). -/
def expand (e : Engine) (s : State) : State :=
  s.setSchedule e (ks (subKey s.mkReg e))

/-- `Derive(e)` (rule R93): only when `KV[e] = 0`. -/
def derive (e : Engine) (s : State) : State :=
  if s.kv.get e then s else expand e s

/-- `Derive(1); Derive(2); Derive(3)` (rules R93, R135). -/
def deriveAll (s : State) : State :=
  derive .e3 (derive .e2 (derive .e1 s))

/-- `KSX e` (rule R91): no exception, no look at `LEN`. -/
def execKsx (e : Engine) (s : State) : Host.Outcome State Fault Refusal :=
  complete (expand e s)

end Sys2Proof.Machine
end

