-- ==== Sys2Proof/Machine/DesBlock.lean ====
section
/-! DEFINITION. The DES block transform (41_des_block.md): the pure function `DES` and the commands `DESE` and `DESD`. The
tables are printed as the spec prints them, read row by row (rule R68). -/

namespace Sys2Proof.Machine

/-- `IP[1..64]` (rule R101). -/
def ipTable : List Nat :=
  [58, 50, 42, 34, 26, 18, 10, 2,
   60, 52, 44, 36, 28, 20, 12, 4,
   62, 54, 46, 38, 30, 22, 14, 6,
   64, 56, 48, 40, 32, 24, 16, 8,
   57, 49, 41, 33, 25, 17, 9, 1,
   59, 51, 43, 35, 27, 19, 11, 3,
   61, 53, 45, 37, 29, 21, 13, 5,
   63, 55, 47, 39, 31, 23, 15, 7]

/-- `IPINV[1..64]` (rule R110). -/
def ipInvTable : List Nat :=
  [40, 8, 48, 16, 56, 24, 64, 32,
   39, 7, 47, 15, 55, 23, 63, 31,
   38, 6, 46, 14, 54, 22, 62, 30,
   37, 5, 45, 13, 53, 21, 61, 29,
   36, 4, 44, 12, 52, 20, 60, 28,
   35, 3, 43, 11, 51, 19, 59, 27,
   34, 2, 42, 10, 50, 18, 58, 26,
   33, 1, 41, 9, 49, 17, 57, 25]

/-- `E[1..48]` (rule R103). -/
def eTable : List Nat :=
  [32, 1, 2, 3, 4, 5,
   4, 5, 6, 7, 8, 9,
   8, 9, 10, 11, 12, 13,
   12, 13, 14, 15, 16, 17,
   16, 17, 18, 19, 20, 21,
   20, 21, 22, 23, 24, 25,
   24, 25, 26, 27, 28, 29,
   28, 29, 30, 31, 32, 1]

/-- `P[1..32]` (rule R107). -/
def pTable : List Nat :=
  [16, 7, 20, 21,
   29, 12, 28, 17,
   1, 15, 23, 26,
   5, 18, 31, 10,
   2, 8, 24, 14,
   32, 27, 3, 9,
   19, 13, 30, 6,
   22, 11, 4, 25]

/-- `SBOX1` (rule R105), rows 0 to 3 one after the other. -/
def sbox1Table : List Nat :=
  [14, 4, 13, 1, 2, 15, 11, 8, 3, 10, 6, 12, 5, 9, 0, 7,
   0, 15, 7, 4, 14, 2, 13, 1, 10, 6, 12, 11, 9, 5, 3, 8,
   4, 1, 14, 8, 13, 6, 2, 11, 15, 12, 9, 7, 3, 10, 5, 0,
   15, 12, 8, 2, 4, 9, 1, 7, 5, 11, 3, 14, 10, 0, 6, 13]

/-- `SBOX2` (rule R105), rows 0 to 3 one after the other. -/
def sbox2Table : List Nat :=
  [15, 1, 8, 14, 6, 11, 3, 4, 9, 7, 2, 13, 12, 0, 5, 10,
   3, 13, 4, 7, 15, 2, 8, 14, 12, 0, 1, 10, 6, 9, 11, 5,
   0, 14, 7, 11, 10, 4, 13, 1, 5, 8, 12, 6, 9, 3, 2, 15,
   13, 8, 10, 1, 3, 15, 4, 2, 11, 6, 7, 12, 0, 5, 14, 9]

/-- `SBOX3` (rule R105), rows 0 to 3 one after the other. -/
def sbox3Table : List Nat :=
  [10, 0, 9, 14, 6, 3, 15, 5, 1, 13, 12, 7, 11, 4, 2, 8,
   13, 7, 0, 9, 3, 4, 6, 10, 2, 8, 5, 14, 12, 11, 15, 1,
   13, 6, 4, 9, 8, 15, 3, 0, 11, 1, 2, 12, 5, 10, 14, 7,
   1, 10, 13, 0, 6, 9, 8, 7, 4, 15, 14, 3, 11, 5, 2, 12]

/-- `SBOX4` (rule R105), rows 0 to 3 one after the other. -/
def sbox4Table : List Nat :=
  [7, 13, 14, 3, 0, 6, 9, 10, 1, 2, 8, 5, 11, 12, 4, 15,
   13, 8, 11, 5, 6, 15, 0, 3, 4, 7, 2, 12, 1, 10, 14, 9,
   10, 6, 9, 0, 12, 11, 7, 13, 15, 1, 3, 14, 5, 2, 8, 4,
   3, 15, 0, 6, 10, 1, 13, 8, 9, 4, 5, 11, 12, 7, 2, 14]

/-- `SBOX5` (rule R105), rows 0 to 3 one after the other. -/
def sbox5Table : List Nat :=
  [2, 12, 4, 1, 7, 10, 11, 6, 8, 5, 3, 15, 13, 0, 14, 9,
   14, 11, 2, 12, 4, 7, 13, 1, 5, 0, 15, 10, 3, 9, 8, 6,
   4, 2, 1, 11, 10, 13, 7, 8, 15, 9, 12, 5, 6, 3, 0, 14,
   11, 8, 12, 7, 1, 14, 2, 13, 6, 15, 0, 9, 10, 4, 5, 3]

/-- `SBOX6` (rule R105), rows 0 to 3 one after the other. -/
def sbox6Table : List Nat :=
  [12, 1, 10, 15, 9, 2, 6, 8, 0, 13, 3, 4, 14, 7, 5, 11,
   10, 15, 4, 2, 7, 12, 9, 5, 6, 1, 13, 14, 0, 11, 3, 8,
   9, 14, 15, 5, 2, 8, 12, 3, 7, 0, 4, 10, 1, 13, 11, 6,
   4, 3, 2, 12, 9, 5, 15, 10, 11, 14, 1, 7, 6, 0, 8, 13]

/-- `SBOX7` (rule R105), rows 0 to 3 one after the other. -/
def sbox7Table : List Nat :=
  [4, 11, 2, 14, 15, 0, 8, 13, 3, 12, 9, 7, 5, 10, 6, 1,
   13, 0, 11, 7, 4, 9, 1, 10, 14, 3, 5, 12, 2, 15, 8, 6,
   1, 4, 11, 13, 12, 3, 7, 14, 10, 15, 6, 8, 0, 5, 9, 2,
   6, 11, 13, 8, 1, 4, 10, 7, 9, 5, 0, 15, 14, 2, 3, 12]

/-- `SBOX8` (rule R105), rows 0 to 3 one after the other. -/
def sbox8Table : List Nat :=
  [13, 2, 8, 4, 6, 15, 11, 1, 10, 9, 3, 14, 5, 0, 12, 7,
   1, 15, 13, 8, 10, 3, 7, 4, 12, 5, 6, 11, 0, 14, 9, 2,
   7, 11, 4, 1, 9, 12, 14, 2, 0, 6, 10, 13, 15, 3, 5, 8,
   2, 1, 14, 7, 4, 10, 8, 13, 15, 12, 9, 0, 3, 5, 6, 11]

/-- `IPf(x)` (rule R101). -/
def ipf (x : BitVec 64) : BitVec 64 :=
  perm 64 ipTable x

/-- `IPinvf(z)` (rule R110). -/
def ipInv (z : BitVec 64) : BitVec 64 :=
  perm 64 ipInvTable z

/-- `Ef(r)` (rule R103). -/
def ef (r : BitVec 32) : BitVec 48 :=
  perm 48 eTable r

/-- `Pf(s)` (rule R107). -/
def pf (s : BitVec 32) : BitVec 32 :=
  perm 32 pTable s

/-- The row of a 6-bit group: its two outer bits, `g[1] ‖ g[6]` in DES numbering (rule R105). -/
def sboxRow (g : BitVec 6) : Nat :=
  2 * (desBit g 1).toNat + (desBit g 6).toNat

/-- The column of a 6-bit group: its four inner bits (rule R105). -/
def sboxCol (g : BitVec 6) : Nat :=
  (desSlice g 2 4).toNat

/-- `SBOX_n[row][column]` for the table of one S-box (rule R105). -/
def sbox (t : List Nat) (g : BitVec 6) : BitVec 4 :=
  BitVec.ofNat 4 (t.getD (16 * sboxRow g + sboxCol g) 0)

/-- Group `g_n = y[6n-5 .. 6n]` in DES numbering (rule R104). -/
def group (y : BitVec 48) (n : Nat) : BitVec 6 :=
  desSlice y (6 * n - 5) 6

/-- `Sub(y)` (rule R106): S-box 1 gives the four most significant bits. -/
def sub (y : BitVec 48) : BitVec 32 :=
  sbox sbox1Table (group y 1) ++ sbox sbox2Table (group y 2) ++ sbox sbox3Table (group y 3) ++
    sbox sbox4Table (group y 4) ++ sbox sbox5Table (group y 5) ++ sbox sbox6Table (group y 6) ++
    sbox sbox7Table (group y 7) ++ sbox sbox8Table (group y 8)

/-- The round function `f(r, k)` (rules R104, R108). -/
def roundF (r : BitVec 32) (k : RoundKey) : BitVec 32 :=
  pf (sub (ef r ^^^ k))

/-- The halves `(L_i, R_i)` (rules R102, R109). -/
abbrev Halves := BitVec 32 × BitVec 32

/-- One round: `(L, R)` becomes `(R, L xor f(R, k))`, both at once (rules R109, R111). -/
def feistelRound (lr : Halves) (k : RoundKey) : Halves :=
  (lr.2, lr.1 ^^^ roundF lr.2 k)

/-- The subkeys in the order the rounds use them (rule R109): the decrypt direction has the sequence in reverse. -/
def subkeyOrder : Dir → Schedule → List RoundKey
  | .enc, rk => rk.toList
  | .dec, rk => rk.toList.reverse

/-- `(L_0, R_0)` of a 64-bit block (rules R101, R102). -/
def startHalves (x : BitVec 64) : Halves :=
  (desSlice (ipf x) 1 32, desSlice (ipf x) 33 32)

/-- `(L_16, R_16)` from `(L_0, R_0)`: the rounds, one per subkey (rule R109). -/
def rounds (keys : List RoundKey) (lr : Halves) : Halves :=
  keys.foldl feistelRound lr

/-- The final swap and the inverse initial permutation (rule R110). -/
def finish (lr : Halves) : BitVec 64 :=
  ipInv (lr.2 ++ lr.1)

/-- `DES` on the 64-bit form of a block (rule R111). -/
def desBits (dir : Dir) (rk : Schedule) (x : BitVec 64) : BitVec 64 :=
  finish (rounds (subkeyOrder dir rk) (startHalves x))

/-- `DES(dir, rk, B)` (rule R111). -/
def des (dir : Dir) (rk : Schedule) (b : Block) : Block :=
  bytesOf 8 (desBits dir rk (be b))

/-- What `DESE` and `DESD` share (rules R116, R117): the checks, `Derive(e)`, one block from `IN` to `OUT`, `ERR <- 0`. -/
def execSingle (dir : Dir) (e : Engine) (s : State) : Host.Outcome State Fault Refusal :=
  match checkLen .oneBlock s with
  | some x => raise x s
  | none =>
    let t := derive e s
    match t.inBuf.readBlock 0 with
    | .error a => .fault (.unwrittenIn a)
    | .ok b => complete (t.setOut (t.outBuf.writeBlock 0 (des dir (t.rk.get e) b)))

/-- `DESE e` (rule R116). -/
def execDese (e : Engine) (s : State) : Host.Outcome State Fault Refusal :=
  execSingle .enc e s

/-- `DESD e` (rule R117). -/
def execDesd (e : Engine) (s : State) : Host.Outcome State Fault Refusal :=
  execSingle .dec e s

end Sys2Proof.Machine
end

