-- ==== Sys2Proof/Machine/TdesEcb.lean ====
section
/-! DEFINITION. Triple-DES and the ECB loop (42_tdes_ecb.md): the pure functions `TDES` and `ECB` and the commands `ECBD`
and `ECBE`. -/

namespace Sys2Proof.Machine

/-- `TDES(dir, rk_1, rk_2, rk_3, B)` (rule R131). -/
def tdes (dir : Dir) (rk : PerEngine Schedule) (b : Block) : Block :=
  match dir with
  | .dec => des .dec rk.e1 (des .enc rk.e2 (des .dec rk.e3 b))
  | .enc => des .enc rk.e3 (des .dec rk.e2 (des .enc rk.e1 b))

/-- `ECB(dir, rk_1, rk_2, rk_3, buf)` on a sequence of whole blocks (rule R133), block by block with nothing carried
over. The spec does not define it for another length and no command calls it so; bytes past the last whole block are
left out here (assumption 24). -/
def ecb (dir : Dir) (rk : PerEngine Schedule) : List Byte → List Byte
  | b0 :: b1 :: b2 :: b3 :: b4 :: b5 :: b6 :: b7 :: rest =>
    (tdes dir rk #v[b0, b1, b2, b3, b4, b5, b6, b7]).toList ++ ecb dir rk rest
  | _ => []

/-- The loop of rules R135 and R136 over `m` blocks from offset `o` on, ascending (rule R133; assumption 19): the new
content of `OUT`, or the first address of `IN` that holds no value. -/
def ecbLoop (dir : Dir) (rk : PerEngine Schedule) (inBuf : Memory) : (m o : Nat) → Memory → Except Nat Memory
  | 0, _, out => .ok out
  | m + 1, o, out =>
    match inBuf.readBlock o with
    | .error a => .error a
    | .ok b => ecbLoop dir rk inBuf m (o + 8) (out.writeBlock o (tdes dir rk b))

/-- What `ECBD` and `ECBE` share (rules R135, R136): the checks, the three derivations, the loop, `ERR <- 0`. -/
def execEcb (dir : Dir) (s : State) : Host.Outcome State Fault Refusal :=
  match checkLen .wholeBlocks s with
  | some x => raise x s
  | none =>
    let t := deriveAll s
    match ecbLoop dir t.rk t.inBuf (blockCount t) 0 t.outBuf with
    | .error a => .fault (.unwrittenIn a)
    | .ok out => complete (t.setOut out)

/-- `ECBD` (rule R135). -/
def execEcbd (s : State) : Host.Outcome State Fault Refusal :=
  execEcb .dec s

/-- `ECBE` (rule R136). -/
def execEcbe (s : State) : Host.Outcome State Fault Refusal :=
  execEcb .enc s

end Sys2Proof.Machine
end

