-- ==== Sys2Proof/Machine/Dispatch.lean ====
section
/-! DEFINITION. One arm per command of rule R61. -/

namespace Sys2Proof.Machine

def exec (i : Instr) (s : State) : Host.Outcome State Fault Refusal :=
  match i with
  | .ksx e => Sys2Proof.Machine.execKsx e s
  | .dese e => Sys2Proof.Machine.execDese e s
  | .desd e => Sys2Proof.Machine.execDesd e s
  | .ecbd => Sys2Proof.Machine.execEcbd s
  | .ecbe => Sys2Proof.Machine.execEcbe s

end Sys2Proof.Machine
end

