-- ==== Sys2Proof/Machine/HostPort.lean ====
section
/-! DEFINITION. The host's side of the core: the eight transactions of rule R50, each one atomic step (R51), the register
numbers (R26 to R28), and taking the next transaction. -/

namespace Sys2Proof.Machine

/-- `H_CMD(w)` (rules R28, R50, R60): the command the word encodes, or `IllegalCommand` and no other effect where it
encodes none (rules R64, R151). -/
def hostCmd (w : Byte) (s : State) : Host.Outcome State Fault Refusal :=
  match decode w with
  | .ok i => exec i s
  | .error _ => raise .illegalCommand s

/-- `H_WR_IN(a, b)` (rule R50). -/
def hostWrIn (a : Nat) (b : Byte) (s : State) : Host.Outcome State Fault Refusal :=
  if a < s.bufMax then .next (s.setIn (s.inBuf.write a b)) else .refused (.noSuchByte a)

/-- `H_RD_IN(a)` (rules R50, R55). -/
def hostRdIn (a : Nat) (s : State) : Host.Outcome State Fault Refusal :=
  if a < s.bufMax then
    match s.inBuf.read a with
    | some b => .next (s.returns (.byte b))
    | none => .fault (.unwrittenIn a)
  else .refused (.noSuchByte a)

/-- `H_RD_OUT(a)` (rules R50, R55). -/
def hostRdOut (a : Nat) (s : State) : Host.Outcome State Fault Refusal :=
  if a < s.bufMax then
    match s.outBuf.read a with
    | some b => .next (s.returns (.byte b))
    | none => .fault (.unwrittenOut a)
  else .refused (.noSuchByte a)

/-- One host transaction (rule R50). -/
def hostStep (t : HostOp) (s : State) : Host.Outcome State Fault Refusal :=
  match t with
  | .reset => .next s.hReset
  | .wrIn a b => hostWrIn a b s
  | .rdIn a => hostRdIn a s
  | .wrLen n => .next (s.setLen n)
  | .rdLen => .next (s.returns (.len s.len))
  | .cmd w => hostCmd w s
  | .rdStatus => .next (s.returns (.status (statusReg s)))
  | .rdOut a => hostRdOut a s

/-- The transaction a read of register number `n` is (rules R26 to R28): `STATUS` is 1, `LEN` is 2; a read of `CMD` or
of any other number is no transaction (assumption 21). -/
def registerRead : Nat → Option HostOp
  | 1 => some .rdStatus
  | 2 => some .rdLen
  | _ => none

/-- The transaction a write of `v` to register number `n` is (rules R26 to R28): `CMD` is 0 and takes 8 bits, `LEN` is
2 and takes 32; a write of `STATUS` or of any other number is no transaction (assumption 21). -/
def registerWrite (n : Nat) (v : BitVec 32) : Option HostOp :=
  match n with
  | 0 => some (.cmd (v.setWidth 8))
  | 2 => some (.wrLen v)
  | _ => none

/-- The next transaction of the host and the state with it taken from the queue (rule R51). -/
def takeNext (s : State) : Option (HostOp × State) :=
  match s.pending with
  | [] => none
  | t :: ts => some (t, s.setPending ts)

/-- The host issues `t` as its very next transaction. -/
def issueNext (t : HostOp) (s : State) : State :=
  s.setPending (t :: s.pending)

end Sys2Proof.Machine
end

