-- ==== Sys2Proof/Machine/Step.lean ====
section
/-! DEFINITION. One step: the host's next transaction, whole (rules R50, R51). -/

namespace Sys2Proof.Machine

/-- One step performs the oldest pending transaction. With none pending the core waits and nothing changes: "the core
never ends a run by itself and has no halt state" (rule R186; assumption 6). -/
def step (s : State) : Host.Outcome State Fault Refusal :=
  match takeNext s with
  | none => .next s
  | some (t, s') => hostStep t s'

/-- The state `s` in which the host's very next transaction is `H_CMD` of the command word `w` (rules R28, R60;
assumption 4). -/
def State.withFetchWord (s : State) (nbits w : Nat) : State :=
  issueNext (.cmd (BitVec.ofNat 8 (w % 2 ^ nbits))) s

end Sys2Proof.Machine
end

