-- ==== Sys2Proof/Machine/Asm.lean ====
section
/-! DEFINITION. The assembler statements of rules R69 and R70: what each statement makes the host do, and the reading of a
source line. The core itself knows nothing of them (assumption 22). -/

namespace Sys2Proof.Machine

/-- A statement or pseudo-instruction (rules R69, R70). -/
inductive AsmStmt where
  /-- `KSX e`, `DESE e`, `DESD e`, `ECBD`, `ECBE`. -/
  | instr (i : Instr)
  /-- `.word w`. -/
  | word (w : Byte)
  /-- `.reset`. -/
  | reset
  /-- `.len n`. -/
  | len (n : BitVec 32)
  /-- `.in a, hh hh ...`. -/
  | inBytes (a : Nat) (bs : List Byte)
  /-- `.expect_out a, hh hh ...`. -/
  | expectOut (a : Nat) (bs : List Byte)
  /-- `.expect_status v`. -/
  | expectStatus (v : Byte)
  /-- `KSXALL`. -/
  | ksxAll
  /-- `.out2in n`. -/
  | out2in (n : Nat)
  /-- `.fill a, n, hh`. -/
  | fill (a n : Nat) (b : Byte)
deriving DecidableEq, Repr

/-- `H_WR_IN(a, b)`, `H_WR_IN(a+1, ...)`, ... for the listed bytes in order (rule R69). -/
def writesFrom : Nat → List Byte → List HostOp
  | _, [] => []
  | a, b :: bs => .wrIn a b :: writesFrom (a + 1) bs

/-- One byte of `.out2in`: the host reads `OUT[a]` and writes what it read to `IN[a]` (rule R70). Where the byte holds
no value the read stops the run (rule R55), so nothing follows it. -/
def copyByte (out : Memory) (a : Nat) : List HostOp :=
  match out.read a with
  | some b => [.rdOut a, .wrIn a b]
  | none => [.rdOut a]

/-- The transactions of a statement (rules R69, R70), for a host that sees the space `OUT` as it stands before the
statement; no statement that reads `OUT` changes it. -/
def AsmStmt.ops (out : Memory) : AsmStmt → List HostOp
  | .instr i => [.cmd (encode i)]
  | .word w => [.cmd w]
  | .reset => [.reset]
  | .len n => [.wrLen n]
  | .inBytes a bs => writesFrom a bs
  | .expectOut a bs => (List.range bs.length).map fun j => .rdOut (a + j)
  | .expectStatus _ => [.rdStatus]
  | .ksxAll => [.cmd (encode (.ksx .e1)), .cmd (encode (.ksx .e2)), .cmd (encode (.ksx .e3))]
  | .out2in n => (List.range n).flatMap (copyByte out)
  | .fill a n b => (List.range n).map fun j => .wrIn (a + j) b

/-- What the reads of a statement must return, for the two `.expect_` statements (rule R69). -/
def AsmStmt.expected : AsmStmt → List HostValue
  | .expectOut _ bs => bs.map .byte
  | .expectStatus v => [.status v]
  | _ => []

/-- The host issues a statement after what it has already issued; the core has performed all of that. -/
def issueStmt (st : AsmStmt) (s : State) : State :=
  s.setPending (s.pending ++ st.ops s.outBuf)

/-- A comment starts at `#` (rule R69). -/
def asmUncomment : List Char → List Char
  | [] => []
  | c :: cs => if c = '#' then [] else c :: asmUncomment cs

/-- The words of a line, cut at blanks and commas, in lower case (rule R69: "case-insensitive"). -/
def asmWords : List Char → List Char → List (List Char)
  | cur, [] => if cur = [] then [] else [cur.reverse]
  | cur, c :: cs =>
    if c = ' ' ∨ c = ',' ∨ c = '\t' then
      if cur = [] then asmWords [] cs else cur.reverse :: asmWords [] cs
    else asmWords (c.toLower :: cur) cs

/-- The value of a digit in base 10 or 16. -/
def asmDigit (base : Nat) (c : Char) : Option Nat :=
  let d := if '0' ≤ c ∧ c ≤ '9' then c.toNat - 48 else if 'a' ≤ c ∧ c ≤ 'f' then c.toNat - 87 else base
  if d < base then some d else none

/-- The value of a non-empty run of digits. -/
def asmDigits (base : Nat) : Nat → List Char → Option Nat
  | acc, [] => some acc
  | acc, c :: cs =>
    match asmDigit base c with
    | some d => asmDigits base (base * acc + d) cs
    | none => none

/-- A number, "decimal, or hexadecimal with 0x" (rule R69). -/
def asmNumber : List Char → Option Nat
  | '0' :: 'x' :: c :: cs => asmDigits 16 0 (c :: cs)
  | c :: cs => asmDigits 10 0 (c :: cs)
  | [] => none

/-- A number that fits in `w` bits. -/
def asmWord (w : Nat) (t : List Char) : Option (BitVec w) :=
  match asmNumber t with
  | some n => if n < 2 ^ w then some (BitVec.ofNat w n) else none
  | none => none

/-- A "hexadecimal digit pair without prefix" (rule R69). -/
def asmPair : List Char → Option Byte
  | [a, b] =>
    match asmDigit 16 a, asmDigit 16 b with
    | some x, some y => some (BitVec.ofNat 8 (16 * x + y))
    | _, _ => none
  | _ => none

/-- A byte string. -/
def asmPairs : List (List Char) → Option (List Byte)
  | [] => some []
  | t :: ts =>
    match asmPair t, asmPairs ts with
    | some b, some bs => some (b :: bs)
    | _, _ => none

/-- The engine operand, "a single digit 1, 2 or 3" (rule R69). -/
def asmEngine : List Char → Option Engine
  | ['1'] => some .e1
  | ['2'] => some .e2
  | ['3'] => some .e3
  | _ => none

/-- A statement with an address and a byte string. -/
def asmAtBytes (k : Nat → List Byte → AsmStmt) (a : List Char) (ts : List (List Char)) : Option AsmStmt :=
  match asmNumber a, asmPairs ts with
  | some n, some bs => some (k n bs)
  | _, _ => none

/-- The statement a line's words spell (rules R69, R70), if they spell one: `KSX 0` or `ECBD 1` spell none. -/
def asmStmt : List (List Char) → Option AsmStmt
  | [m] =>
    if m = "ecbd".toList then some (.instr .ecbd)
    else if m = "ecbe".toList then some (.instr .ecbe)
    else if m = "ksxall".toList then some .ksxAll
    else if m = ".reset".toList then some .reset
    else none
  | [m, x] =>
    if m = "ksx".toList then (asmEngine x).map fun e => .instr (.ksx e)
    else if m = "dese".toList then (asmEngine x).map fun e => .instr (.dese e)
    else if m = "desd".toList then (asmEngine x).map fun e => .instr (.desd e)
    else if m = ".word".toList then (asmWord 8 x).map .word
    else if m = ".len".toList then (asmWord 32 x).map .len
    else if m = ".expect_status".toList then (asmWord 8 x).map .expectStatus
    else if m = ".out2in".toList then (asmNumber x).map .out2in
    else none
  | m :: x :: y :: ts =>
    if m = ".in".toList then asmAtBytes .inBytes x (y :: ts)
    else if m = ".expect_out".toList then asmAtBytes .expectOut x (y :: ts)
    else if m = ".fill".toList then
      match asmNumber x, asmNumber y, ts with
      | some a, some n, [b] => (asmPair b).map (.fill a n)
      | _, _, _ => none
    else none
  | [] => none

/-- A source line (rule R69): the statement it holds; an empty or comment line and a line that spells no statement hold
none. -/
def asmLine (line : List Char) : Option AsmStmt :=
  asmStmt (asmWords [] (asmUncomment line))

end Sys2Proof.Machine
end

