-- ==== Sys2Proof/Safety.lean ====
section
/-! DEFINITION. What a state of a run of the core satisfies, in the terms the statements use. -/

namespace Sys2Proof.Machine

/-- Both byte spaces are in canonical form and lie inside `[0, BUF_MAX)` (rule R42). -/
def State.memoryOk (s : State) : Prop :=
  s.inBuf.wf = true ∧ s.outBuf.wf = true ∧ s.inBuf.below s.bufMax = true ∧ s.outBuf.below s.bufMax = true

/-- The key register holds the configuration's key (rule R20: "It holds the value of the configuration parameter
MASTER_KEY from reset on and never changes"). -/
def State.keyOk (s : State) : Prop :=
  s.mkReg = s.cfg.masterKey

/-- The invariant of the round-subkey file (rule R23): `KV[e] = 1` implies `RK[e][i] = KS(K_e)[i]` for every `i`. -/
def State.scheduleOk (s : State) : Prop :=
  ∀ e : Engine, s.kv.get e = true → s.rk.get e = ks (subKey s.mkReg e)

/-- The invariant every step keeps. -/
structure State.Inv (s : State) : Prop where
  memory : s.memoryOk
  key : s.keyOk
  schedule : s.scheduleOk

/-- Every byte of `IN[0 .. n-1]` has been written (rules R53, R55): the host's duty before a data command. -/
def State.inputReady (s : State) (n : Nat) : Prop :=
  ∀ a, a < n → (s.inBuf.read a).isSome = true

/-- The bytes `M[a .. a+n-1]`, with `0` standing for a byte that holds no value: used only where every byte of the range
is known to hold one. -/
def bytesAt (m : Memory) (a n : Nat) : List Byte :=
  (List.range n).map fun j => (m.read (a + j)).getD 0

/-- The fields no command touches but `ERR`, `OUT`, `RK` and `KV` (rules R20, R27, R49, R163). -/
def State.sameHostSide (s t : State) : Prop :=
  t.cfg = s.cfg ∧ t.mkReg = s.mkReg ∧ t.len = s.len ∧ t.inBuf = s.inBuf ∧ t.pending = s.pending ∧ t.reads = s.reads

end Sys2Proof.Machine
end

