-- ==== Sys2Proof/Certificates/Slice0/Obligations.lean ====
section
/-! DEFINITION. The statements for the provers, from the numbered rules of spec/. Each docstring says which rule or section
it formalises; each statement with hypotheses has a witness in Sys2Proof/Tests/Slice0.lean. -/

namespace Sys2Proof.Machine

/-- The eleven assigned words with the command each stands for (rule R61). -/
def assignedWords : List (Byte × Instr) :=
  [(0x11, .ksx .e1), (0x12, .ksx .e2), (0x13, .ksx .e3), (0x21, .dese .e1), (0x22, .dese .e2), (0x23, .dese .e3),
    (0x31, .desd .e1), (0x32, .desd .e2), (0x33, .desd .e3), (0x40, .ecbd), (0x50, .ecbe)]

/-- The data commands (rule R35): all but `KSX`. -/
def isData : Instr → Bool
  | .ksx _ => false
  | .dese _ | .desd _ | .ecbd | .ecbe => true

/-- The code the checks of rule R156 report for a command word, in their order; `none` where they all pass. -/
def reportedCode (w : Byte) (s : State) : ErrCode :=
  match decode w with
  | .error _ => .illegalCommand
  | .ok (.ksx _) => .none
  | .ok (.dese _) | .ok (.desd _) =>
    if s.bufMax < s.len.toNat then .capacityError else if s.len.toNat ≠ 8 then .contractViolation else .none
  | .ok .ecbd | .ok .ecbe =>
    if s.bufMax < s.len.toNat then .capacityError else if s.len.toNat % 8 ≠ 0 then .sizeError else .none

/-- What engine `e`'s subkeys are once a command has derived it (rule R93). -/
def derivedKeys (s : State) (e : Engine) : Schedule :=
  if s.kv.get e = true then s.rk.get e else ks (subKey s.mkReg e)

/-- The whole effect of a single-block command where its checks pass and `IN[0..7]` is written (rules R116, R117). -/
def oneBlockRuns (dir : Dir) (i : Engine → Instr) : Prop :=
  ∀ (e : Engine) (s : State) (b : Block), 8 ≤ s.bufMax → s.len = 8 →
    (∀ j (h : j < 8), s.inBuf.read j = some b[j]) →
    ∃ t, exec (i e) s = .next t ∧
      (∀ j (h : j < 8), t.outBuf.read j = some (des dir (derivedKeys s e) b)[j]) ∧
      (∀ a, 8 ≤ a → t.outBuf.read a = s.outBuf.read a) ∧
      t.kv.get e = true ∧ t.rk.get e = derivedKeys s e ∧
      (∀ g, g ≠ e → t.kv.get g = s.kv.get g ∧ t.rk.get g = s.rk.get g) ∧
      t.err = .none ∧ s.sameHostSide t

/-- The whole effect of an ECB command where its checks pass and `IN[0 .. LEN-1]` is written (rules R135, R136). -/
def wholeBufferRuns (dir : Dir) (i : Instr) : Prop :=
  ∀ s : State, s.len.toNat ≤ s.bufMax → s.len.toNat % 8 = 0 → s.inputReady s.len.toNat →
    ∃ t, exec i s = .next t ∧
      bytesAt t.outBuf 0 s.len.toNat =
        ecb dir ⟨derivedKeys s .e1, derivedKeys s .e2, derivedKeys s .e3⟩ (bytesAt s.inBuf 0 s.len.toNat) ∧
      (∀ a, a < s.len.toNat → (t.outBuf.read a).isSome = true) ∧
      (∀ a, s.len.toNat ≤ a → t.outBuf.read a = s.outBuf.read a) ∧
      (∀ e, t.kv.get e = true ∧ t.rk.get e = derivedKeys s e) ∧
      t.err = .none ∧ s.sameHostSide t

/-- The host copies `OUT[0 .. n-1]` to `IN[0 .. n-1]` (rule R141). -/
def copyBack (n : Nat) (s : State) : State :=
  s.setIn (s.inBuf.writeBytes 0 (bytesAt s.outBuf 0 n))

/-- One command, the copy, the other command: the original input (rule R141). -/
def roundTrips (first second : Instr) : Prop :=
  ∀ s : State, s.len.toNat ≤ s.bufMax → s.len.toNat % 8 = 0 → s.inputReady s.len.toNat →
    ∃ t u, exec first s = .next t ∧ exec second (copyBack s.len.toNat t) = .next u ∧
      bytesAt u.outBuf 0 s.len.toNat = bytesAt s.inBuf 0 s.len.toNat ∧ u.err = .none

/-- Two outcomes with the same `OUT` and `ERR` (rule R93), or the same stop of the model. -/
def sameOutAndErr : Host.Outcome State Fault Refusal → Host.Outcome State Fault Refusal → Prop
  | .next t, .next u => t.outBuf = u.outBuf ∧ t.err = u.err
  | .fault r, .fault q => r = q
  | _, _ => False

/-- Two outcomes with the same `ERR` and, where the command completes, the same `OUT[0 .. n-1]` (rule R35), or the same
stop of the model. -/
def sameResult (n : Nat) : Host.Outcome State Fault Refusal → Host.Outcome State Fault Refusal → Prop
  | .next t, .next u => t.err = u.err ∧ (t.err = .none → ∀ a, a < n → t.outBuf.read a = u.outBuf.read a)
  | .fault r, .fault q => r = q
  | _, _ => False

/-- Two outcomes that show the host the same values, or the same stop. -/
def sameReads : Host.Outcome State Fault Refusal → Host.Outcome State Fault Refusal → Prop
  | .next t, .next u => t.reads = u.reads
  | .fault r, .fault q => r = q
  | .refused r, .refused q => r = q
  | _, _ => False

/-- One iteration of the ECB loop on block `k`, alone (rule R139). -/
def transformBlock (dir : Dir) (rk : PerEngine Schedule) (inBuf : Memory) (out : Memory) (k : Nat) : Memory :=
  match inBuf.readBlock (8 * k) with
  | .ok b => out.writeBlock (8 * k) (tdes dir rk b)
  | .error _ => out

/-- `TOT(i) = ROT(1) + ... + ROT(i)` (rule R88). -/
def rotTotal : Nat → Nat
  | 0 => 0
  | i + 1 => rotTotal i + rot (i + 1)

/-- `pos56(i, p)` (rule R89). -/
def pos56 (i p : Nat) : Nat :=
  if p ≤ 28 then pc1Table.getD ((p - 1 + rotTotal i) % 28) 0 else pc1Table.getD ((p - 29 + rotTotal i) % 28 + 28) 0

/-- `SEL[i][j]`: the key bit that becomes bit `j` of subkey `i` (rule R89). -/
def keyBitOf (i j : Nat) : Nat :=
  pos56 i (pc2Table.getD (j - 1) 0)

/-- Two keys with the same 56 effective bits: they differ at most in the parity bit of each byte (rules R66, R87). -/
def sameEffective (k l : Block) : Prop :=
  ∀ j : Fin 8, k[j] >>> 1 = l[j] >>> 1

/-- Every bit of every byte complemented. -/
def complementBytes (b : Block) : Block :=
  b.map (~~~ ·)

/-- A 28-bit half that is all zeros or all ones (rule R94). -/
def constantHalf (c : BitVec 28) : Prop :=
  c = 0 ∨ c = BitVec.allOnes 28

/-- `(L_i, R_i)` of a transform (rule R109). -/
def halvesAfter (dir : Dir) (rk : Schedule) (lr : Halves) (i : Nat) : Halves :=
  rounds ((subkeyOrder dir rk).take i) lr

/-- `k_i` of rule R109 for round `i + 1`. -/
def roundKeyOf (dir : Dir) (rk : Schedule) (i : Fin 16) : RoundKey :=
  match dir with
  | .enc => rk[i.val]
  | .dec => rk[15 - i.val]

end Sys2Proof.Machine

open Sys2Proof Sys2Proof.Machine

/-! ## The encoding (30_encoding.md) -/

/-- Rules R61 and R62: the eleven assigned words, written out, decode to the commands of the table, and no other word
decodes. -/
def Obligations.ElevenWordsDecode : Prop :=
  (∀ p ∈ assignedWords, decode p.1 = .ok p.2) ∧
    ∀ w : Byte, (∃ i, decode w = .ok i) → w ∈ assignedWords.map Prod.fst

/-- Decoding the word of a command gives the command back, for every command and every engine (rules R60, R61). -/
def Obligations.DecodeOfEncode : Prop :=
  ∀ i : Instr, decode (encode i) = .ok i

/-- Each assigned word has one meaning: encoding what a word decodes to gives the word back (rules R60, R61, R64). -/
def Obligations.EncodeOfDecode : Prop :=
  ∀ (w : Byte) (i : Instr), decode w = .ok i → encode i = w

/-- Rule R64, with the exception of rule R151: each of the 245 other words raises `IllegalCommand` with no other effect,
whatever `LEN` and the buffers hold. -/
def Obligations.IllegalCommandTaken : Prop :=
  ∀ (w : Byte) (s : State), w ∉ assignedWords.map Prod.fst →
    hostStep (.cmd w) s = .next { s with err := .illegalCommand }

/-! ## A step (20_memory.md section 4) -/

/-- A step runs the decoded command: with `H_CMD(w)` the oldest pending transaction and `w` the word of `i`, `step` is
`exec i` on the state with that transaction taken from the queue, and nothing around it (rules R50, R51). -/
def Obligations.StepRunsCommand : Prop :=
  ∀ (s : State) (w : Byte) (ts : List HostOp) (i : Instr), s.pending = .cmd w :: ts → decode w = .ok i →
    step s = exec i { s with pending := ts }

/-- The total order of rule R51: a step performs exactly the oldest pending transaction. With none pending nothing
changes: that is the model's reading of "the core never ends a run by itself and has no halt state" (rule R186;
assumptions 4 and 6). -/
def Obligations.StepFollowsHostOrder : Prop :=
  (∀ (s : State) (op : HostOp) (ts : List HostOp), s.pending = op :: ts → step s = hostStep op { s with pending := ts }) ∧
    ∀ s : State, s.pending = [] → step s = .next s

/-- The word of a command issued next is the very next thing the core runs (rules R28, R60; assumption 4). -/
def Obligations.IssuedCommandRuns : Prop :=
  ∀ (i : Instr) (s : State), step (s.withFetchWord 8 (encode i).toNat) = exec i s

/-! ## Reset (10_state.md section 8, 70_reset_and_hazards.md section 1) -/

/-- The values rule R33 gives for reset: the key, the valid bits, the error code, `STATUS`, the length, and no byte of
`IN` or `OUT` with a value. Nothing is claimed of `RK` (assumption 3). -/
def Obligations.StateAfterReset : Prop :=
  State.reset.mkReg = State.reset.cfg.masterKey ∧ (∀ e, State.reset.kv.get e = false) ∧ State.reset.err = .none ∧
    statusReg State.reset = 0x00 ∧ State.reset.len = 0 ∧ (∀ a, State.reset.inBuf.read a = none) ∧
    ∀ a, State.reset.outBuf.read a = none

/-- `H_RESET` (rule R180) from any state: the reset values again; the configuration, the host's queue and the values
already returned stay, which is the model's choice (assumption 14). Nothing is claimed of `RK` (assumption 3). -/
def Obligations.HostResetEffect : Prop :=
  ∀ s : State, ∃ t, hostStep .reset s = .next t ∧ t.mkReg = s.cfg.masterKey ∧ (∀ e, t.kv.get e = false) ∧
    t.err = .none ∧ statusReg t = 0x00 ∧ t.len = 0 ∧ (∀ a, t.inBuf.read a = none) ∧ (∀ a, t.outBuf.read a = none) ∧
    t.cfg = s.cfg ∧ t.pending = s.pending ∧ t.reads = s.reads

/-- The invariant holds right after reset, for every configuration (rules R20, R23, R33). -/
def Obligations.ResetMeetsInvariant : Prop :=
  State.reset.Inv ∧ ∀ c : Config, (State.resetOf c).Inv

/-! ## Invariants and whole-machine rules (10_state.md) -/

/-- Every step keeps the invariant: both byte spaces canonical and inside `[0, BUF_MAX)` (rule R42), the key register at
its configured value (rule R20), and a valid engine's registers equal to its key schedule (rule R23). -/
def Obligations.StepKeepsInvariant : Prop :=
  ∀ s t : State, s.Inv → step s = .next t → t.Inv

/-- Rule R23's invariant in every reachable state: whatever the host issues and for however many steps. -/
def Obligations.ReachableSchedulesAreKs : Prop :=
  ∀ (c : Config) (ts : List HostOp) (n : Nat) (t : State),
    Host.Core.run Sys2Proof.core n ((State.resetOf c).setPending ts) = .next t →
    ∀ e, t.kv.get e = true → ∀ i : Fin 16, (t.rk.get e)[i] = (ks (subKey t.mkReg e))[i]

/-- The key never changes (rule R20): where the key register holds the configured key, every step leaves it and the
configuration as they are. -/
def Obligations.StepKeepsMasterKey : Prop :=
  ∀ s t : State, s.keyOk → step s = .next t → t.mkReg = s.mkReg ∧ t.cfg = s.cfg

/-- No command writes `MK` (rule R20), `LEN` (rule R27) or `IN` (rule R49), nor the model's own fields. -/
def Obligations.CommandsKeepHostSide : Prop :=
  ∀ (i : Instr) (s t : State), exec i s = .next t → s.sameHostSide t

/-- What the commands leave of the two spaces (rests on rule R49): no command writes `IN`; no byte of `OUT` at or above
`LEN` changes; a command that faults, and `KSX`, leave all of `OUT` as it was; after a data command that completes every
byte of `OUT[0 .. LEN-1]` holds a value. WHICH value is stated by DeseResult, DesdResult, EcbdResult, EcbeResult, and
that it does not depend on the old `OUT` by DataCommandsAreStateless. -/
def Obligations.CommandMemoryFrame : Prop :=
  ∀ (i : Instr) (s t : State), exec i s = .next t →
    t.inBuf = s.inBuf ∧
    (∀ a, s.len.toNat ≤ a → t.outBuf.read a = s.outBuf.read a) ∧
    (t.err ≠ .none ∨ isData i = false → t.outBuf = s.outBuf) ∧
    (t.err = .none → isData i = true → ∀ a, a < s.len.toNat → (t.outBuf.read a).isSome = true)

/-- `KV[e]`, once set, is cleared only by reset (rule R24). -/
def Obligations.ValidBitsClearedOnlyByReset : Prop :=
  ∀ (s t : State) (e : Engine), s.kv.get e = true → s.pending.head? ≠ some .reset → step s = .next t →
    t.kv.get e = true

/-- A host transaction that is neither a command nor the reset leaves `ERR`, `RK`, `KV` and `OUT` as they are (rules
R22, R25, R42). -/
def Obligations.HostAccessesKeepCoreState : Prop :=
  ∀ (op : HostOp) (s t : State), op ≠ .reset → (∀ w, op ≠ .cmd w) → hostStep op s = .next t →
    t.err = s.err ∧ t.rk = s.rk ∧ t.kv = s.kv ∧ t.outBuf = s.outBuf ∧ t.mkReg = s.mkReg ∧ t.pending = s.pending

/-- The host can read neither `MK` nor `RK` (rules R20, R22): two states that differ only in them show it the same
values in every transaction that is not a command. -/
def Obligations.HostNeverSeesKeys : Prop :=
  ∀ (op : HostOp) (s : State) (k : Vector Byte 24) (r : PerEngine Schedule), (∀ w, op ≠ .cmd w) →
    sameReads (hostStep op s) (hostStep op { s with mkReg := k, rk := r })

/-! ## Host transactions and registers (20_memory.md R50, 10_state.md section 3) -/

/-- `H_WR_IN(a, b)` below `BUF_MAX`: `IN[a]` is `b` and reads back as `b`, every other byte and every other field is
unchanged (rule R50). -/
def Obligations.HostWritesOneByte : Prop :=
  ∀ (a : Nat) (b : Byte) (s : State), a < s.bufMax →
    ∃ t, hostStep (.wrIn a b) s = .next t ∧ t.inBuf.read a = some b ∧
      (∀ c, c ≠ a → t.inBuf.read c = s.inBuf.read c) ∧ t = { s with inBuf := t.inBuf } ∧
      hostStep (.rdIn a) t = .next { t with reads := t.reads ++ [.byte b] }

/-- `LEN` (rule R27): register number 2, reset value 0; "Every 32-bit value can be written and reads back as written";
no command writes it. -/
def Obligations.LengthReadsBack : Prop :=
  registerRead 2 = some .rdLen ∧ (∀ v, registerWrite 2 v = some (.wrLen v)) ∧ State.reset.len = 0 ∧
  (∀ (n : BitVec 32) (s : State), ∃ t, hostStep (.wrLen n) s = .next t ∧ t = { s with len := n } ∧
    hostStep .rdLen t = .next { t with reads := t.reads ++ [.len n] }) ∧
  ∀ (i : Instr) (s t : State), exec i s = .next t → t.len = s.len

/-- `H_RD_OUT(a)` and `H_RD_IN(a)` below `BUF_MAX` return the byte and change nothing else; a byte nothing has written
is a fault, never a zero (rules R50, R55; the fault's form is the model's, assumptions 7 and 8). -/
def Obligations.HostReadsOneByte : Prop :=
  ∀ (a : Nat) (s : State), a < s.bufMax →
    (∀ b, s.outBuf.read a = some b → hostStep (.rdOut a) s = .next { s with reads := s.reads ++ [.byte b] }) ∧
    (s.outBuf.read a = none → hostStep (.rdOut a) s = .fault (.unwrittenOut a)) ∧
    (∀ b, s.inBuf.read a = some b → hostStep (.rdIn a) s = .next { s with reads := s.reads ++ [.byte b] }) ∧
    (s.inBuf.read a = none → hostStep (.rdIn a) s = .fault (.unwrittenIn a))

/-- At `a >= BUF_MAX` the three byte transactions do not exist: the model refuses them (rule R50; assumption 9). -/
def Obligations.NoByteBeyondCapacity : Prop :=
  ∀ (a : Nat) (b : Byte) (s : State), s.bufMax ≤ a →
    hostStep (.wrIn a b) s = .refused (.noSuchByte a) ∧ hostStep (.rdIn a) s = .refused (.noSuchByte a) ∧
      hostStep (.rdOut a) s = .refused (.noSuchByte a)

/-- `STATUS` (rule R26): register number 1, read by `H_RD_STATUS` and written by nothing, reset value 0; `ERR` in bits
3:0 and never above 4, `KV1`, `KV2`, `KV3` in bits 4 to 6, bit 7 zero. A read changes nothing else. -/
def Obligations.StatusLayout : Prop :=
  registerRead 1 = some .rdStatus ∧ (∀ v, registerWrite 1 v = none) ∧ statusReg State.reset = 0x00 ∧
  ∀ s : State,
    (statusReg s).extractLsb' 0 4 = errBits s.err ∧ (errBits s.err).toNat ≤ 4 ∧
    (statusReg s).getLsbD 4 = s.kv.get .e1 ∧ (statusReg s).getLsbD 5 = s.kv.get .e2 ∧
    (statusReg s).getLsbD 6 = s.kv.get .e3 ∧ (statusReg s).getLsbD 7 = false ∧
    hostStep .rdStatus s = .next { s with reads := s.reads ++ [.status (statusReg s)] }

/-! ## Exceptions (60_exceptions.md) -/

/-- Rule R152 with rule R157: every data command with `LEN > BUF_MAX` raises `CapacityError`, and nothing but `ERR`
changes. -/
def Obligations.CapacityErrorTaken : Prop :=
  ∀ (i : Instr) (s : State), isData i = true → s.bufMax < s.len.toNat →
    exec i s = .next { s with err := .capacityError }

/-- Rule R153 with rule R157: `ECBD` and `ECBE` with a length inside the buffer that is no multiple of 8 raise
`SizeError`, and nothing but `ERR` changes. -/
def Obligations.SizeErrorTaken : Prop :=
  ∀ s : State, s.len.toNat ≤ s.bufMax → s.len.toNat % 8 ≠ 0 →
    exec .ecbd s = .next { s with err := .sizeError } ∧ exec .ecbe s = .next { s with err := .sizeError }

/-- Rule R154 with rule R157: `DESE` and `DESD` with a length inside the buffer other than 8 raise `ContractViolation`,
nothing but `ERR` changes, and the core carries on (assumption 10). -/
def Obligations.ContractViolationTaken : Prop :=
  ∀ (e : Engine) (s : State), s.len.toNat ≤ s.bufMax → s.len.toNat ≠ 8 →
    exec (.dese e) s = .next { s with err := .contractViolation } ∧
      exec (.desd e) s = .next { s with err := .contractViolation }

/-- Rule R156: whatever the word and the state, the code left in `ERR` is the first of the checks that holds; and where
one holds, setting it is the whole effect. -/
def Obligations.ExceptionPriority : Prop :=
  ∀ (w : Byte) (s : State),
    (∀ t, hostStep (.cmd w) s = .next t → t.err = reportedCode w s) ∧
      (reportedCode w s ≠ .none → hostStep (.cmd w) s = .next { s with err := reportedCode w s })

/-- Exceptions are precise (rule R158): a command that answers a next state either completed, with `ERR` 0, or did
nothing but set `ERR`. -/
def Obligations.ExceptionsArePrecise : Prop :=
  ∀ (i : Instr) (s t : State), exec i s = .next t → t.err = .none ∨ t = { s with err := t.err }

/-! ## The commands (40_key_schedule.md R91, 41_des_block.md R116 and R117, 42_tdes_ecb.md R135 and R136) -/

/-- `KSX e` completes in every state (rule R91): engine `e` holds the schedule of its sub-key and is valid, `ERR` is 0,
and the other engines, `LEN`, `IN`, `OUT`, `MK` are unchanged. -/
def Obligations.KsxResult : Prop :=
  ∀ (e : Engine) (s : State), ∃ t, exec (.ksx e) s = .next t ∧
    (∀ i : Fin 16, (t.rk.get e)[i] = (ks (subKey s.mkReg e))[i]) ∧ t.kv.get e = true ∧
    (∀ g, g ≠ e → t.rk.get g = s.rk.get g ∧ t.kv.get g = s.kv.get g) ∧ t.err = .none ∧
    t.outBuf = s.outBuf ∧ s.sameHostSide t

/-- `DESE e` completes whenever its checks pass and `IN[0..7]` is written (rule R116): `OUT[0..7]` is the encryption of
the block under engine `e`, and everything else is as the rule says. -/
def Obligations.DeseResult : Prop :=
  oneBlockRuns .enc .dese

/-- `DESD e`, the same in the decrypt direction (rule R117). -/
def Obligations.DesdResult : Prop :=
  oneBlockRuns .dec .desd

/-- `ECBD` completes whenever its checks pass and `IN[0 .. LEN-1]` is written (rule R135): `OUT[0 .. LEN-1]` is the pure
function `ECB` of the input in the decrypt ordering, the engines are derived, and everything else is unchanged. -/
def Obligations.EcbdResult : Prop :=
  wholeBufferRuns .dec .ecbd

/-- `ECBE`, the same in the encrypt ordering (rule R136). -/
def Obligations.EcbeResult : Prop :=
  wholeBufferRuns .enc .ecbe

/-- A data command whose checks pass and whose input range holds an unwritten byte stops, and names the first such byte
(rule R55; the fault's form is the model's, assumption 7). -/
def Obligations.UnwrittenInputStops : Prop :=
  ∀ (i : Instr) (s : State) (a : Nat), isData i = true → reportedCode (encode i) s = .none → a < s.len.toNat →
    s.inBuf.read a = none → (∀ y, y < a → (s.inBuf.read y).isSome = true) → exec i s = .fault (.unwrittenIn a)

/-- An empty buffer succeeds for `ECBD` and `ECBE` (rule R140): no byte is read or written, the three derivations are
performed, `ERR` is 0. -/
def Obligations.EmptyBufferSucceeds : Prop :=
  ∀ (i : Instr) (s : State), i = .ecbd ∨ i = .ecbe → s.len = 0 →
    ∃ t, exec i s = .next t ∧ t.outBuf = s.outBuf ∧ t.err = .none ∧ s.sameHostSide t ∧
      ∀ e, t.kv.get e = true ∧ t.rk.get e = derivedKeys s e

/-- `KSX` is idempotent (rule R92): after one execution a second changes nothing; and where the schedule invariant of
rule R23 holds, `KSX` of a valid engine changes nothing but `ERR`. -/
def Obligations.KsxIsIdempotent : Prop :=
  (∀ (e : Engine) (s t : State), exec (.ksx e) s = .next t → exec (.ksx e) t = .next t) ∧
    ∀ (e : Engine) (s : State), s.scheduleOk → s.kv.get e = true → exec (.ksx e) s = .next { s with err := .none }

/-- When the subkeys are derived cannot be seen in `OUT` or `ERR` (rule R93): a data command gives the same with engine
`e` expanded beforehand as without. -/
def Obligations.DerivationTimeUnobservable : Prop :=
  ∀ (i : Instr) (e : Engine) (s : State), isData i = true → s.scheduleOk →
    sameOutAndErr (exec i s) (exec i (expand e s))

/-- The statelessness law (rule R35): the effect of a data command on `OUT[0 .. LEN-1]` and `ERR` depends only on the key,
`LEN`, `BUF_MAX`, the command and `IN[0 .. LEN-1]`. -/
def Obligations.DataCommandsAreStateless : Prop :=
  ∀ (i : Instr) (s u : State), isData i = true → s.mkReg = u.mkReg → s.len = u.len → s.bufMax = u.bufMax →
    s.scheduleOk → u.scheduleOk → (∀ a, a < s.len.toNat → s.inBuf.read a = u.inBuf.read a) →
    sameResult s.len.toNat (exec i s) (exec i u)

/-- The round trip on the core (rule R141), both ways round. -/
def Obligations.RoundTripOnCore : Prop :=
  roundTrips .ecbe .ecbd ∧ roundTrips .ecbd .ecbe

/-- The order in which the blocks are visited is not observable (rule R139): every order of the iterations ends with the
same content of `OUT` as the ascending one. -/
def Obligations.BlockOrderUnobservable : Prop :=
  ∀ (dir : Dir) (rk : PerEngine Schedule) (inBuf out out' : Memory) (m : Nat) (order : List Nat),
    out.wf = true → order.Perm (List.range m) → ecbLoop dir rk inBuf m 0 out = .ok out' →
    order.foldl (transformBlock dir rk inBuf) out = out'

/-! ## The pure functions and their laws -/

/-- Rule R9: output bit `j` of `Perm(T, v)` is input bit `T[j]`. -/
def Obligations.PermSelectsBits : Prop :=
  ∀ (w n : Nat) (t : List Nat) (v : BitVec w), t.length = n → ∀ j (h : j < t.length),
    desBit (perm n t v) (j + 1) = desBit v t[j]

/-- Rule R10: `rotl28` bit by bit and as shifts. -/
def Obligations.RotationFormula : Prop :=
  ∀ (x : BitVec 28) (s : Nat), s = 1 ∨ s = 2 →
    rotl28 x s = ((x <<< s) ||| (x >>> (28 - s))) ∧
      ∀ k, 1 ≤ k → k ≤ 28 → desBit (rotl28 x s) k = desBit x ((k - 1 + s) % 28 + 1)

/-- Rule R11: `BE` puts byte `j` at bits `8j+1` to `8j+8`, and `BYTES_n` is its inverse. -/
def Obligations.BytesAndBits : Prop :=
  (∀ (n : Nat) (b : Vector Byte n) (j k : Nat) (h : j < n), 1 ≤ k → k ≤ 8 →
    desBit (be b) (8 * j + k) = desBit b[j] k) ∧
    (∀ (n : Nat) (b : Vector Byte n), bytesOf n (be b) = b) ∧
    ∀ (n : Nat) (v : BitVec (8 * n)), be (bytesOf n v) = v

/-- Rule R21: the sub-keys are the three 8-byte slices of `MK`, in order. -/
def Obligations.SubKeysAreSlices : Prop :=
  ∀ (mk : Vector Byte 24) (j : Fin 8),
    (subKey mk .e1)[j] = mk[j.val] ∧ (subKey mk .e2)[j] = mk[8 + j.val] ∧ (subKey mk .e3)[j] = mk[16 + j.val]

/-- Rules R83 and R88: the rotation amounts, their totals, and the closed form of the rotations. -/
def Obligations.RotationTotals : Prop :=
  (List.range 16).map (fun i => rot (i + 1)) = [1, 1, 2, 2, 2, 2, 2, 2, 1, 2, 2, 2, 2, 2, 2, 1] ∧
    (List.range 16).map (fun i => rotTotal (i + 1)) = [1, 2, 4, 6, 8, 10, 12, 14, 15, 17, 19, 21, 23, 25, 27, 28] ∧
    (∀ (k : BitVec 64) (i p : Nat), i ≤ 16 → 1 ≤ p → p ≤ 28 →
      desBit (cd k i).1 p = desBit (cd k 0).1 ((p - 1 + rotTotal i) % 28 + 1) ∧
        desBit (cd k i).2 p = desBit (cd k 0).2 ((p - 1 + rotTotal i) % 28 + 1)) ∧
    ∀ k : BitVec 64, cd k 16 = cd k 0

/-- The formula of rule R89: bit `j` of subkey `i` is key bit `SEL[i][j]`. Rows 1, 9 and 16 of the printed
table are checked against it in the tests. -/
def Obligations.SubkeyBitsAreKeyBits : Prop :=
  ∀ (key : Block) (i : Fin 16) (j : Nat), 1 ≤ j → j ≤ 48 →
    desBit (ks key)[i] j = desBit (be key) (keyBitOf (i.val + 1) j)

/-- Rule R87: the parity bit of each key byte has no effect on the schedule. -/
def Obligations.KeyParityIgnored : Prop :=
  ∀ key m : Block, (∀ j : Fin 8, m[j] = 0 ∨ m[j] = 1) → ks (Vector.zipWith (· ^^^ ·) key m) = ks key

/-- Rule R90: complementing the key complements every subkey. -/
def Obligations.KeyScheduleComplement : Prop :=
  ∀ (key : Block) (i : Fin 16), (ks (complementBytes key))[i] = ~~~(ks key)[i]

/-- Rule R94: a key whose halves are all-zero or all-one has sixteen equal subkeys (all 0 or all 1 where both halves
agree), and its decrypt direction is its encrypt direction. -/
def Obligations.CornerKeys : Prop :=
  ∀ key : Block,
    (cd (be key) 0 = (0, 0) → ∀ i : Fin 16, (ks key)[i] = 0) ∧
    (cd (be key) 0 = (BitVec.allOnes 28, BitVec.allOnes 28) → ∀ i : Fin 16, (ks key)[i] = BitVec.allOnes 48) ∧
    (constantHalf (cd (be key) 0).1 → constantHalf (cd (be key) 0).2 →
      (∀ i j : Fin 16, (ks key)[i] = (ks key)[j]) ∧ ∀ b, des .dec (ks key) b = des .enc (ks key) b)

/-- Rule R110: `IPINV` is the inverse permutation of `IP`, entry by entry and as functions, and the pre-output is the
right half on the left. -/
def Obligations.InitialPermutationInverse : Prop :=
  (∀ j, 1 ≤ j → j ≤ 64 → ipInvTable.getD (ipTable.getD (j - 1) 0 - 1) 0 = j ∧
    ipTable.getD (ipInvTable.getD (j - 1) 0 - 1) 0 = j) ∧
    (∀ x, ipInv (ipf x) = x ∧ ipf (ipInv x) = x) ∧ ∀ lr : Halves, finish lr = ipInv (lr.2 ++ lr.1)

/-- Rule R109: the recurrence of the rounds, with subkey `i` in round `i` when encrypting and subkey `17 - i` when
decrypting. -/
def Obligations.RoundRecurrence : Prop :=
  ∀ (dir : Dir) (rk : Schedule) (lr : Halves) (i : Fin 16),
    halvesAfter dir rk lr 0 = lr ∧ halvesAfter dir rk lr 16 = rounds (subkeyOrder dir rk) lr ∧
    (halvesAfter dir rk lr (i.val + 1)).1 = (halvesAfter dir rk lr i.val).2 ∧
    (halvesAfter dir rk lr (i.val + 1)).2 =
      (halvesAfter dir rk lr i.val).1 ^^^ roundF (halvesAfter dir rk lr i.val).2 (roundKeyOf dir rk i)

/-- Rule R112: decryption inverts encryption and the other way round, for every schedule and block; with sixteen equal
subkeys the two directions are the same, so the transform is an involution. -/
def Obligations.DecryptInvertsEncrypt : Prop :=
  ∀ (rk : Schedule) (b : Block), des .dec rk (des .enc rk b) = b ∧ des .enc rk (des .dec rk b) = b ∧
    ((∀ i j : Fin 16, rk[i] = rk[j]) → des .dec rk b = des .enc rk b ∧ des .enc rk (des .enc rk b) = b)

/-- Rule R113: the block transform is a bijection on blocks, for every direction and schedule. -/
def Obligations.BlockTransformBijective : Prop :=
  ∀ (dir : Dir) (rk : Schedule), Function.Bijective (des dir rk)

/-- Rule R115: the complement law of the block transform, in both directions. -/
def Obligations.ComplementLaw : Prop :=
  ∀ (dir : Dir) (key b : Block),
    des dir (ks (complementBytes key)) (complementBytes b) = complementBytes (des dir (ks key) b)

/-- Rule R132: the two Triple-DES orderings are inverse to each other. -/
def Obligations.TripleDesInverse : Prop :=
  ∀ (rk : PerEngine Schedule) (b : Block), tdes .dec rk (tdes .enc rk b) = b ∧ tdes .enc rk (tdes .dec rk b) = b

/-- Rule R137: keys with equal effective bits collapse Triple-DES to single DES. -/
def Obligations.DegenerateKeys : Prop :=
  ∀ (dir : Dir) (k1 k2 k3 b : Block),
    (sameEffective k1 k2 → tdes dir ⟨ks k1, ks k2, ks k3⟩ b = des dir (ks k3) b) ∧
    (sameEffective k2 k3 → tdes dir ⟨ks k1, ks k2, ks k3⟩ b = des dir (ks k1) b) ∧
    (sameEffective k1 k2 → sameEffective k2 k3 → tdes dir ⟨ks k1, ks k2, ks k3⟩ b = des dir (ks k2) b)

/-- Rule R134: the output of `ECB` has exactly the length of its input, for every whole number of blocks. -/
def Obligations.EcbKeepsLength : Prop :=
  ∀ (dir : Dir) (rk : PerEngine Schedule) (buf : List Byte), buf.length % 8 = 0 →
    (ecb dir rk buf).length = buf.length

/-- Rules R133 and R138: `ECB` is `TDES` on each block; two buffers that differ only in block `k` have outputs that differ
in block `k` and only there; equal input blocks give equal output blocks. -/
def Obligations.BlocksAreIndependent : Prop :=
  ∀ (dir : Dir) (rk : PerEngine Schedule) (m k : Nat) (x : List Byte), x.length = 8 * m → k < m →
    (∀ b : Block, (x.drop (8 * k)).take 8 = b.toList →
      ((ecb dir rk x).drop (8 * k)).take 8 = (tdes dir rk b).toList) ∧
    (∀ l, l < m → (x.drop (8 * k)).take 8 = (x.drop (8 * l)).take 8 →
      ((ecb dir rk x).drop (8 * k)).take 8 = ((ecb dir rk x).drop (8 * l)).take 8) ∧
    ∀ y : List Byte, y.length = 8 * m → (∀ j, j < 8 * k ∨ 8 * k + 8 ≤ j → x[j]? = y[j]?) →
      (∀ j, j < 8 * k ∨ 8 * k + 8 ≤ j → (ecb dir rk x)[j]? = (ecb dir rk y)[j]?) ∧
        (x ≠ y → ((ecb dir rk x).drop (8 * k)).take 8 ≠ ((ecb dir rk y).drop (8 * k)).take 8)
end

