-- ==== Sys2Proof/Laws/Bits.lean ====
section
/-! SUPPORT. What the bit notation computes: the digits of a permuted value, the bits of a slice, the digits of a byte
sequence. -/

namespace Sys2Proof.Machine

theorem permNat_append {w : Nat} (t u : List Nat) (v : BitVec w) :
    permNat (t ++ u) v = permNat t v * 2 ^ u.length + permNat u v := by
  have key : ∀ (u : List Nat) (acc : Nat),
      u.foldl (fun acc p => 2 * acc + (desBit v p).toNat) acc = acc * 2 ^ u.length + permNat u v := by
    intro u
    induction u with
    | nil => intro acc; simp [permNat]
    | cons p u ih =>
      intro acc
      simp only [permNat, List.foldl_cons, List.length_cons] at ih ⊢
      rw [ih, ih (2 * 0 + _)]
      ring
  simp only [permNat, List.foldl_append]
  exact key u _

theorem permNat_lt {w : Nat} (t : List Nat) (v : BitVec w) : permNat t v < 2 ^ t.length := by
  induction t using List.reverseRecOn with
  | nil => simp [permNat]
  | append_singleton t p ih =>
    have hb : permNat [p] v ≤ 1 := by cases h : desBit v p <;> simp [permNat, h]
    rw [permNat_append, List.length_append]
    simp only [List.length_cons, List.length_nil, Nat.zero_add, pow_succ]
    omega

/-- Digit `j` from the left is the bit the table's entry `j` names (rule R9). -/
theorem permNat_testBit {w : Nat} (t : List Nat) (v : BitVec w) (j : Nat) (h : j < t.length) :
    (permNat t v).testBit (t.length - 1 - j) = desBit v t[j] := by
  induction t using List.reverseRecOn with
  | nil => simp at h
  | append_singleton t p ih =>
    have hp : permNat [p] v = (desBit v p).toNat := by simp [permNat]
    rw [permNat_append, hp]
    simp only [List.length_append, List.length_cons, List.length_nil, Nat.zero_add, pow_one] at h ⊢
    rcases Nat.lt_succ_iff_lt_or_eq.mp h with hlt | rfl
    · rw [show t.length + 1 - 1 - j = (t.length - 1 - j) + 1 by omega, Nat.testBit_succ,
        List.getElem_append_left hlt, ← ih hlt]
      congr 1
      cases desBit v p <;> simp [Nat.mul_comm]
      omega
    · rw [show t.length + 1 - 1 - t.length = 0 by omega]
      cases hb : desBit v p <;> simp [hb, Nat.testBit_zero]

/-- A bit of a slice in LSB-0 numbering. -/
theorem getLsbD_desSlice {w : Nat} (v : BitVec w) (p n i : Nat) (h : i < n) :
    (desSlice v p n).getLsbD i = v.getLsbD (w + 1 - p - n + i) := by
  simp [desSlice, h]

/-- A bit of a slice in DES numbering (rule R8). -/
theorem desBit_desSlice {w : Nat} (v : BitVec w) (p n k : Nat) (hp : 1 ≤ p) (hpn : p + n ≤ w + 1) (hk : 1 ≤ k)
    (hkn : k ≤ n) : desBit (desSlice v p n) k = desBit v (p + k - 1) := by
  simp only [desBit]
  rw [getLsbD_desSlice _ _ _ _ (by omega)]
  congr 1
  omega

theorem beNat_append (l : List Byte) (b : Byte) :
    (l ++ [b]).foldl (fun acc x => 256 * acc + x.toNat) 0 =
      256 * l.foldl (fun acc x => 256 * acc + x.toNat) 0 + b.toNat := by
  simp

theorem beNat_lt (l : List Byte) : l.foldl (fun acc x => 256 * acc + x.toNat) 0 < 2 ^ (8 * l.length) := by
  induction l using List.reverseRecOn with
  | nil => simp
  | append_singleton l b ih =>
    rw [beNat_append, List.length_append, List.length_singleton, Nat.mul_add, pow_add]
    have := b.isLt
    omega

theorem be_toNat {n : Nat} (b : Vector Byte n) :
    (be b).toNat = b.toList.foldl (fun acc x => 256 * acc + x.toNat) 0 := by
  have h := beNat_lt b.toList
  rw [Vector.length_toList] at h
  simp only [be, BitVec.toNat_ofNat]
  exact Nat.mod_eq_of_lt h

end Sys2Proof.Machine
end

