-- ==== Sys2Proof/Laws/Memory.lean ====
section
/-! SUPPORT. The laws of the byte spaces: read after write, the canonical form kept by every operation, and what the reads
and writes of several bytes are in terms of single ones. -/

namespace Sys2Proof.Machine

@[simp] theorem Memory.read_nil (a : Nat) : Memory.read [] a = none := rfl

@[simp] theorem Memory.read_write_same (m : Memory) (a : Nat) (b : Byte) : (m.write a b).read a = some b := by
  induction m with
  | nil => simp [Memory.write, Memory.read]
  | cons c t ih =>
    obtain ⟨x, y⟩ := c
    simp only [Memory.write]
    split
    · simp [Memory.read]
    · split
      · simp [Memory.read]
      · rename_i h
        have : x ≠ a := fun e => h e.symm
        simp [Memory.read, this, ih]

@[simp] theorem Memory.read_write_other (m : Memory) (a c : Nat) (b : Byte) (h : c ≠ a) :
    (m.write a b).read c = m.read c := by
  have ha : a ≠ c := fun e => h e.symm
  induction m with
  | nil => simp [Memory.write, Memory.read, ha]
  | cons d t ih =>
    obtain ⟨x, y⟩ := d
    simp only [Memory.write]
    split
    · simp [Memory.read, ha]
    · split
      · subst_vars
        simp [Memory.read, ha]
      · simp [Memory.read, ih]

/-! The canonical form. -/

@[simp] theorem Memory.wf_nil : Memory.wf [] = true := rfl

theorem Memory.wf_cons {c : Host.Cell} {t : Memory} :
    Memory.wf (c :: t) = true ↔ (∀ d ∈ t.head?, c.1 < d.1) ∧ t.wf = true := by
  cases t <;> simp [Memory.wf]

theorem Memory.head_write (m : Memory) (a : Nat) (b : Byte) :
    ∀ d ∈ (m.write a b).head?, d.1 = a ∨ d ∈ m.head? := by
  cases m with
  | nil => simp [Memory.write]
  | cons c t =>
    obtain ⟨x, y⟩ := c
    simp only [Memory.write]
    split
    · simp
    · split <;> simp

theorem Memory.wf_write {m : Memory} (h : m.wf = true) (a : Nat) (b : Byte) : (m.write a b).wf = true := by
  induction m with
  | nil => rfl
  | cons c t ih =>
    obtain ⟨x, y⟩ := c
    obtain ⟨hd, ht⟩ := Memory.wf_cons.mp h
    simp only [Memory.write]
    split
    · rename_i hax
      exact Memory.wf_cons.mpr ⟨by simpa using hax, h⟩
    · split
      · rename_i hax
        subst hax
        exact Memory.wf_cons.mpr ⟨hd, ht⟩
      · rename_i h1 h2
        refine Memory.wf_cons.mpr ⟨fun d hdm => ?_, ih ht⟩
        rcases Memory.head_write t a b d hdm with hda | hdt
        · simp only [hda]
          omega
        · exact hd d hdt

theorem Memory.wf_writeBytes {m : Memory} (h : m.wf = true) (a : Nat) (bs : List Byte) :
    (m.writeBytes a bs).wf = true := by
  induction bs generalizing m a with
  | nil => exact h
  | cons b bs ih => exact ih (Memory.wf_write h a b) (a + 1)

theorem Memory.wf_writeBlock {m : Memory} (h : m.wf = true) (a : Nat) (b : Block) : (m.writeBlock a b).wf = true :=
  Memory.wf_write (Memory.wf_write (Memory.wf_write (Memory.wf_write (Memory.wf_write (Memory.wf_write
    (Memory.wf_write (Memory.wf_write h _ _) _ _) _ _) _ _) _ _) _ _) _ _) _ _

theorem Memory.below_write {n : Nat} {m : Memory} (h : m.below n = true) {a : Nat} (ha : a < n) (b : Byte) :
    (m.write a b).below n = true := by
  induction m with
  | nil => simpa [Memory.write, Memory.below] using ha
  | cons c t ih =>
    obtain ⟨x, y⟩ := c
    simp only [Memory.below, List.all_cons, Bool.and_eq_true, decide_eq_true_eq] at h
    simp only [Memory.write]
    split
    · simpa [Memory.below, ha] using h
    · split
      · simpa [Memory.below, ha] using h.2
      · have := ih h.2
        simp only [Memory.below] at this
        simp [Memory.below, h.1, this]

theorem Memory.below_writeBytes {n : Nat} {m : Memory} (h : m.below n = true) {a : Nat} {bs : List Byte}
    (ha : a + bs.length ≤ n) : (m.writeBytes a bs).below n = true := by
  induction bs generalizing m a with
  | nil => exact h
  | cons b bs ih =>
    simp only [List.length_cons] at ha
    exact ih (Memory.below_write h (by omega) b) (by omega)

theorem Memory.below_writeBlock {n : Nat} {m : Memory} (h : m.below n = true) {a : Nat} (ha : a + 8 ≤ n) (b : Block) :
    (m.writeBlock a b).below n = true := by
  unfold Memory.writeBlock
  repeat refine Memory.below_write ?_ (by omega) _
  exact h

/-- In canonical form every address from the second entry on is above the first entry's. -/
theorem Memory.read_below_head {c : Host.Cell} {t : Memory} (h : Memory.wf (c :: t) = true) {a : Nat} (ha : a < c.1) :
    Memory.read (c :: t) a = none := by
  induction t generalizing c with
  | nil =>
    have : c.1 ≠ a := by omega
    simp [Memory.read, this]
  | cons d t ih =>
    obtain ⟨hd, ht⟩ := Memory.wf_cons.mp h
    have hcd : c.1 < d.1 := hd d (by simp)
    have : c.1 ≠ a := by omega
    rw [Memory.read, if_neg this]
    exact ih ht (by omega)

/-- Two spaces in canonical form that read the same are the same data. -/
theorem Memory.ext_read {m n : Memory} (hm : m.wf = true) (hn : n.wf = true) (h : ∀ a, m.read a = n.read a) :
    m = n := by
  induction m generalizing n with
  | nil =>
    cases n with
    | nil => rfl
    | cons d u => have := h d.1; simp [Memory.read] at this
  | cons c t ih =>
    cases n with
    | nil => have := h c.1; simp [Memory.read] at this
    | cons d u =>
      obtain ⟨hc, ht⟩ := Memory.wf_cons.mp hm
      obtain ⟨hd, hu⟩ := Memory.wf_cons.mp hn
      have hcd : c.1 = d.1 := by
        rcases Nat.lt_trichotomy c.1 d.1 with hlt | he | hlt
        · have := h c.1
          rw [Memory.read_below_head hn hlt] at this
          simp [Memory.read] at this
        · exact he
        · have := h d.1
          rw [Memory.read_below_head hm hlt] at this
          simp [Memory.read] at this
      have hval : c.2 = d.2 := by
        have := h c.1
        simpa [Memory.read, hcd] using this
      have htail : t = u := by
        refine ih ht hu fun a => ?_
        by_cases ha : c.1 = a
        · have gone : ∀ (c : Host.Cell) (t : Memory), Memory.wf (c :: t) = true → Memory.read t c.1 = none := by
            intro c t hw
            cases t with
            | nil => rfl
            | cons e t => exact Memory.read_below_head (Memory.wf_cons.mp hw).2 ((Memory.wf_cons.mp hw).1 e (by simp))
          rw [← ha, gone c t hm, hcd, gone d u hn]
        · have := h a
          rw [Memory.read, if_neg ha, Memory.read, if_neg (hcd ▸ ha)] at this
          exact this
      rw [htail, Prod.ext hcd hval]

/-! Several bytes (rules R44, R45). -/

theorem Memory.read_writeBytes_out (m : Memory) (a c : Nat) (bs : List Byte) (h : c < a ∨ a + bs.length ≤ c) :
    (m.writeBytes a bs).read c = m.read c := by
  induction bs generalizing m a with
  | nil => rfl
  | cons b bs ih =>
    simp only [List.length_cons] at h
    rw [Memory.writeBytes, ih (m.write a b) (a + 1) (by omega)]
    exact Memory.read_write_other m a c b (by omega)

theorem Memory.read_writeBytes_in (m : Memory) (a j : Nat) (bs : List Byte) (h : j < bs.length) :
    (m.writeBytes a bs).read (a + j) = some bs[j] := by
  induction bs generalizing m a j with
  | nil => simp at h
  | cons b bs ih =>
    cases j with
    | zero =>
      rw [Memory.writeBytes, Memory.read_writeBytes_out _ _ _ _ (by omega)]
      simp
    | succ j =>
      rw [Memory.writeBytes, show a + (j + 1) = a + 1 + j by omega, ih (m.write a b) (a + 1) j (by simpa using h)]
      simp

theorem Memory.read_writeBlock_out (m : Memory) (a c : Nat) (b : Block) (h : c < a ∨ a + 8 ≤ c) :
    (m.writeBlock a b).read c = m.read c := by
  unfold Memory.writeBlock
  repeat rw [Memory.read_write_other _ _ _ _ (by omega)]

theorem Memory.read_writeBlock_in (m : Memory) (a j : Nat) (b : Block) (h : j < 8) :
    (m.writeBlock a b).read (a + j) = some b[j] := by
  unfold Memory.writeBlock
  obtain rfl | rfl | rfl | rfl | rfl | rfl | rfl | rfl :
      j = 0 ∨ j = 1 ∨ j = 2 ∨ j = 3 ∨ j = 4 ∨ j = 5 ∨ j = 6 ∨ j = 7 := by omega
  all_goals simp

/-- A read of several bytes answers exactly the bytes the single addresses hold. -/
theorem Memory.readBytes_eq_ok {m : Memory} {a n : Nat} {v : Vector Byte n} :
    m.readBytes a n = .ok v ↔ ∀ j (h : j < n), m.read (a + j) = some v[j] := by
  induction n with
  | zero =>
    simp only [Memory.readBytes, Except.ok.injEq]
    exact ⟨fun _ j h => absurd h (by omega), fun _ => (Vector.eq_empty).symm⟩
  | succ n ih =>
    simp only [Memory.readBytes]
    constructor
    · intro h j hj
      split at h
      · cases h
      · rename_i u hu
        split at h
        · cases h
        · rename_i b hb
          cases h
          rcases Nat.lt_succ_iff_lt_or_eq.mp hj with hlt | rfl
          · rw [ih.mp hu j hlt, Vector.getElem_push_lt]
          · simpa using hb
    · intro h
      have hu : m.readBytes a n = .ok v.pop :=
        ih.mpr fun j hj => by simpa using h j (by omega)
      rw [hu]
      have hb := h n (by omega)
      simp only [hb]
      congr 1
      exact Vector.push_pop_back v

/-- A read of several bytes stops at the first address that holds none. -/
theorem Memory.readBytes_eq_error {m : Memory} {a n x : Nat} :
    m.readBytes a n = .error x →
      a ≤ x ∧ x < a + n ∧ m.read x = none ∧ ∀ y, a ≤ y → y < x → (m.read y).isSome = true := by
  induction n with
  | zero => intro h; cases h
  | succ n ih =>
    intro h
    simp only [Memory.readBytes] at h
    split at h
    · rename_i z hz
      cases h
      obtain ⟨h1, h2, h3, h4⟩ := ih hz
      exact ⟨h1, by omega, h3, h4⟩
    · rename_i u hu
      split at h
      · rename_i hb
        cases h
        refine ⟨by omega, by omega, hb, fun y h1 h2 => ?_⟩
        have := Memory.readBytes_eq_ok.mp hu (y - a) (by omega)
        rw [show a + (y - a) = y by omega] at this
        simp [this]
      · cases h

theorem Memory.readBlock_eq_ok {m : Memory} {a : Nat} {b : Block} :
    m.readBlock a = .ok b ↔ ∀ j (h : j < 8), m.read (a + j) = some b[j] :=
  Memory.readBytes_eq_ok

end Sys2Proof.Machine
end

