-- ==== Sys2Proof/Laws/State.lean ====
section
/-! SUPPORT. One lemma per field per update of State, true by rfl, so that no proof unfolds a record update; and reading a
per-engine entry after writing one. -/

namespace Sys2Proof

@[simp] theorem PerEngine.get_set_same {α : Type} (p : PerEngine α) (e : Engine) (x : α) :
    (p.set e x).get e = x := by
  cases e <;> rfl

@[simp] theorem PerEngine.get_set_other {α : Type} (p : PerEngine α) (e g : Engine) (x : α) (h : g ≠ e) :
    (p.set e x).get g = p.get g := by
  cases e <;> cases g <;> first | rfl | exact absurd rfl h

theorem PerEngine.ext_get {α : Type} {p q : PerEngine α} (h : ∀ e, p.get e = q.get e) : p = q := by
  cases p
  cases q
  have h1 := h .e1
  have h2 := h .e2
  have h3 := h .e3
  simp only [PerEngine.get] at h1 h2 h3
  subst h1 h2 h3
  rfl

end Sys2Proof

namespace Sys2Proof.Machine

variable (s : State)

/-! `setErr`: `ERR <- x`. -/

@[simp] theorem State.setErr_cfg (x : ErrCode) : (s.setErr x).cfg = s.cfg := rfl
@[simp] theorem State.setErr_mkReg (x : ErrCode) : (s.setErr x).mkReg = s.mkReg := rfl
@[simp] theorem State.setErr_rk (x : ErrCode) : (s.setErr x).rk = s.rk := rfl
@[simp] theorem State.setErr_kv (x : ErrCode) : (s.setErr x).kv = s.kv := rfl
@[simp] theorem State.setErr_err (x : ErrCode) : (s.setErr x).err = x := rfl
@[simp] theorem State.setErr_len (x : ErrCode) : (s.setErr x).len = s.len := rfl
@[simp] theorem State.setErr_inBuf (x : ErrCode) : (s.setErr x).inBuf = s.inBuf := rfl
@[simp] theorem State.setErr_outBuf (x : ErrCode) : (s.setErr x).outBuf = s.outBuf := rfl
@[simp] theorem State.setErr_pending (x : ErrCode) : (s.setErr x).pending = s.pending := rfl
@[simp] theorem State.setErr_reads (x : ErrCode) : (s.setErr x).reads = s.reads := rfl
@[simp] theorem State.setErr_bufMax (x : ErrCode) : (s.setErr x).bufMax = s.bufMax := rfl

/-! `setLen`: `LEN <- n`. -/

@[simp] theorem State.setLen_cfg (n : BitVec 32) : (s.setLen n).cfg = s.cfg := rfl
@[simp] theorem State.setLen_mkReg (n : BitVec 32) : (s.setLen n).mkReg = s.mkReg := rfl
@[simp] theorem State.setLen_rk (n : BitVec 32) : (s.setLen n).rk = s.rk := rfl
@[simp] theorem State.setLen_kv (n : BitVec 32) : (s.setLen n).kv = s.kv := rfl
@[simp] theorem State.setLen_err (n : BitVec 32) : (s.setLen n).err = s.err := rfl
@[simp] theorem State.setLen_len (n : BitVec 32) : (s.setLen n).len = n := rfl
@[simp] theorem State.setLen_inBuf (n : BitVec 32) : (s.setLen n).inBuf = s.inBuf := rfl
@[simp] theorem State.setLen_outBuf (n : BitVec 32) : (s.setLen n).outBuf = s.outBuf := rfl
@[simp] theorem State.setLen_pending (n : BitVec 32) : (s.setLen n).pending = s.pending := rfl
@[simp] theorem State.setLen_reads (n : BitVec 32) : (s.setLen n).reads = s.reads := rfl
@[simp] theorem State.setLen_bufMax (n : BitVec 32) : (s.setLen n).bufMax = s.bufMax := rfl

/-! `setIn`: `IN` replaced. -/

@[simp] theorem State.setIn_cfg (m : Memory) : (s.setIn m).cfg = s.cfg := rfl
@[simp] theorem State.setIn_mkReg (m : Memory) : (s.setIn m).mkReg = s.mkReg := rfl
@[simp] theorem State.setIn_rk (m : Memory) : (s.setIn m).rk = s.rk := rfl
@[simp] theorem State.setIn_kv (m : Memory) : (s.setIn m).kv = s.kv := rfl
@[simp] theorem State.setIn_err (m : Memory) : (s.setIn m).err = s.err := rfl
@[simp] theorem State.setIn_len (m : Memory) : (s.setIn m).len = s.len := rfl
@[simp] theorem State.setIn_inBuf (m : Memory) : (s.setIn m).inBuf = m := rfl
@[simp] theorem State.setIn_outBuf (m : Memory) : (s.setIn m).outBuf = s.outBuf := rfl
@[simp] theorem State.setIn_pending (m : Memory) : (s.setIn m).pending = s.pending := rfl
@[simp] theorem State.setIn_reads (m : Memory) : (s.setIn m).reads = s.reads := rfl
@[simp] theorem State.setIn_bufMax (m : Memory) : (s.setIn m).bufMax = s.bufMax := rfl

/-! `setOut`: `OUT` replaced. -/

@[simp] theorem State.setOut_cfg (m : Memory) : (s.setOut m).cfg = s.cfg := rfl
@[simp] theorem State.setOut_mkReg (m : Memory) : (s.setOut m).mkReg = s.mkReg := rfl
@[simp] theorem State.setOut_rk (m : Memory) : (s.setOut m).rk = s.rk := rfl
@[simp] theorem State.setOut_kv (m : Memory) : (s.setOut m).kv = s.kv := rfl
@[simp] theorem State.setOut_err (m : Memory) : (s.setOut m).err = s.err := rfl
@[simp] theorem State.setOut_len (m : Memory) : (s.setOut m).len = s.len := rfl
@[simp] theorem State.setOut_inBuf (m : Memory) : (s.setOut m).inBuf = s.inBuf := rfl
@[simp] theorem State.setOut_outBuf (m : Memory) : (s.setOut m).outBuf = m := rfl
@[simp] theorem State.setOut_pending (m : Memory) : (s.setOut m).pending = s.pending := rfl
@[simp] theorem State.setOut_reads (m : Memory) : (s.setOut m).reads = s.reads := rfl
@[simp] theorem State.setOut_bufMax (m : Memory) : (s.setOut m).bufMax = s.bufMax := rfl

/-! `setSchedule`: `RK[e] <- k`, `KV[e] <- 1`. -/

@[simp] theorem State.setSchedule_cfg (e : Engine) (k : Schedule) : (s.setSchedule e k).cfg = s.cfg := rfl
@[simp] theorem State.setSchedule_mkReg (e : Engine) (k : Schedule) : (s.setSchedule e k).mkReg = s.mkReg := rfl
@[simp] theorem State.setSchedule_rk (e : Engine) (k : Schedule) : (s.setSchedule e k).rk = s.rk.set e k := rfl
@[simp] theorem State.setSchedule_kv (e : Engine) (k : Schedule) : (s.setSchedule e k).kv = s.kv.set e true := rfl
@[simp] theorem State.setSchedule_err (e : Engine) (k : Schedule) : (s.setSchedule e k).err = s.err := rfl
@[simp] theorem State.setSchedule_len (e : Engine) (k : Schedule) : (s.setSchedule e k).len = s.len := rfl
@[simp] theorem State.setSchedule_inBuf (e : Engine) (k : Schedule) : (s.setSchedule e k).inBuf = s.inBuf := rfl
@[simp] theorem State.setSchedule_outBuf (e : Engine) (k : Schedule) : (s.setSchedule e k).outBuf = s.outBuf := rfl
@[simp] theorem State.setSchedule_pending (e : Engine) (k : Schedule) : (s.setSchedule e k).pending = s.pending := rfl
@[simp] theorem State.setSchedule_reads (e : Engine) (k : Schedule) : (s.setSchedule e k).reads = s.reads := rfl
@[simp] theorem State.setSchedule_bufMax (e : Engine) (k : Schedule) : (s.setSchedule e k).bufMax = s.bufMax := rfl

/-! `setPending`: the queue replaced. -/

@[simp] theorem State.setPending_cfg (ts : List HostOp) : (s.setPending ts).cfg = s.cfg := rfl
@[simp] theorem State.setPending_mkReg (ts : List HostOp) : (s.setPending ts).mkReg = s.mkReg := rfl
@[simp] theorem State.setPending_rk (ts : List HostOp) : (s.setPending ts).rk = s.rk := rfl
@[simp] theorem State.setPending_kv (ts : List HostOp) : (s.setPending ts).kv = s.kv := rfl
@[simp] theorem State.setPending_err (ts : List HostOp) : (s.setPending ts).err = s.err := rfl
@[simp] theorem State.setPending_len (ts : List HostOp) : (s.setPending ts).len = s.len := rfl
@[simp] theorem State.setPending_inBuf (ts : List HostOp) : (s.setPending ts).inBuf = s.inBuf := rfl
@[simp] theorem State.setPending_outBuf (ts : List HostOp) : (s.setPending ts).outBuf = s.outBuf := rfl
@[simp] theorem State.setPending_pending (ts : List HostOp) : (s.setPending ts).pending = ts := rfl
@[simp] theorem State.setPending_reads (ts : List HostOp) : (s.setPending ts).reads = s.reads := rfl
@[simp] theorem State.setPending_bufMax (ts : List HostOp) : (s.setPending ts).bufMax = s.bufMax := rfl

/-! `returns`: a value returned. -/

@[simp] theorem State.returns_cfg (v : HostValue) : (s.returns v).cfg = s.cfg := rfl
@[simp] theorem State.returns_mkReg (v : HostValue) : (s.returns v).mkReg = s.mkReg := rfl
@[simp] theorem State.returns_rk (v : HostValue) : (s.returns v).rk = s.rk := rfl
@[simp] theorem State.returns_kv (v : HostValue) : (s.returns v).kv = s.kv := rfl
@[simp] theorem State.returns_err (v : HostValue) : (s.returns v).err = s.err := rfl
@[simp] theorem State.returns_len (v : HostValue) : (s.returns v).len = s.len := rfl
@[simp] theorem State.returns_inBuf (v : HostValue) : (s.returns v).inBuf = s.inBuf := rfl
@[simp] theorem State.returns_outBuf (v : HostValue) : (s.returns v).outBuf = s.outBuf := rfl
@[simp] theorem State.returns_pending (v : HostValue) : (s.returns v).pending = s.pending := rfl
@[simp] theorem State.returns_reads (v : HostValue) : (s.returns v).reads = s.reads ++ [v] := rfl
@[simp] theorem State.returns_bufMax (v : HostValue) : (s.returns v).bufMax = s.bufMax := rfl

/-! `H_RESET` (rule R180). -/

@[simp] theorem State.hReset_cfg : s.hReset.cfg = s.cfg := rfl
@[simp] theorem State.hReset_mkReg : s.hReset.mkReg = s.cfg.masterKey := rfl
@[simp] theorem State.hReset_rk : s.hReset.rk = ⟨scheduleAtReset .e1, scheduleAtReset .e2, scheduleAtReset .e3⟩ := rfl
@[simp] theorem State.hReset_kv : s.hReset.kv = ⟨false, false, false⟩ := rfl
@[simp] theorem State.hReset_err : s.hReset.err = .none := rfl
@[simp] theorem State.hReset_len : s.hReset.len = 0 := rfl
@[simp] theorem State.hReset_inBuf : s.hReset.inBuf = [] := rfl
@[simp] theorem State.hReset_outBuf : s.hReset.outBuf = [] := rfl
@[simp] theorem State.hReset_pending : s.hReset.pending = s.pending := rfl
@[simp] theorem State.hReset_reads : s.hReset.reads = s.reads := rfl
@[simp] theorem State.hReset_bufMax : s.hReset.bufMax = s.bufMax := rfl

/-! Taking an exception (rule R157) and completing (rule R25). -/

@[simp] theorem raise_eq_next {x : ErrCode} {t : State} : raise x s = .next t ↔ s.setErr x = t := by
  simp [raise]

@[simp] theorem complete_eq_next {t : State} : complete s = .next t ↔ s.setErr .none = t := by
  simp [complete]

end Sys2Proof.Machine
end

