-- ==== Sys2Proof/Laws/Commands.lean ====
section
/-! SUPPORT. What each shared operation of the commands can do, said once: the length checks, the derivations, the ECB loop,
the two shapes of data command, a command, a host transaction, a step. -/

namespace Sys2Proof.Machine

/-! The length checks (rules R152 to R154, R156). -/

theorem checkLen_oneBlock_eq_none {s : State} :
    checkLen .oneBlock s = none ↔ s.len.toNat ≤ s.bufMax ∧ s.len.toNat = 8 := by
  simp only [checkLen]
  split
  · simp; omega
  · split <;> simp <;> omega

theorem checkLen_wholeBlocks_eq_none {s : State} :
    checkLen .wholeBlocks s = none ↔ s.len.toNat ≤ s.bufMax ∧ s.len.toNat % 8 = 0 := by
  simp only [checkLen]
  split
  · simp; omega
  · split <;> simp <;> omega

theorem checkLen_ne_code_none (r : LenRule) (s : State) : checkLen r s ≠ some .none := by
  simp only [checkLen]
  split
  · simp
  · cases r <;> simp only <;> split <;> simp

/-! Derivation (rules R91, R93). -/

@[simp] theorem sameHostSide_refl (s : State) : s.sameHostSide s :=
  ⟨rfl, rfl, rfl, rfl, rfl, rfl⟩

theorem sameHostSide_trans {s t u : State} (h : s.sameHostSide t) (k : t.sameHostSide u) : s.sameHostSide u := by
  obtain ⟨h1, h2, h3, h4, h5, h6⟩ := h
  obtain ⟨k1, k2, k3, k4, k5, k6⟩ := k
  exact ⟨k1.trans h1, k2.trans h2, k3.trans h3, k4.trans h4, k5.trans h5, k6.trans h6⟩

theorem expand_sameHostSide (e : Engine) (s : State) : s.sameHostSide (expand e s) :=
  ⟨rfl, rfl, rfl, rfl, rfl, rfl⟩

theorem derive_cases (e : Engine) (s : State) :
    (s.kv.get e = true ∧ derive e s = s) ∨ (s.kv.get e = false ∧ derive e s = expand e s) := by
  cases h : s.kv.get e <;> simp [derive, h]

theorem derive_sameHostSide (e : Engine) (s : State) : s.sameHostSide (derive e s) := by
  rcases derive_cases e s with ⟨-, h⟩ | ⟨-, h⟩
  · rw [h]; exact sameHostSide_refl s
  · rw [h]; exact expand_sameHostSide e s

@[simp] theorem derive_mkReg (e : Engine) (s : State) : (derive e s).mkReg = s.mkReg :=
  (derive_sameHostSide e s).2.1

@[simp] theorem derive_outBuf (e : Engine) (s : State) : (derive e s).outBuf = s.outBuf := by
  rcases derive_cases e s with ⟨-, h⟩ | ⟨-, h⟩ <;> (rw [h]; try rfl)

@[simp] theorem derive_inBuf (e : Engine) (s : State) : (derive e s).inBuf = s.inBuf :=
  (derive_sameHostSide e s).2.2.2.1

@[simp] theorem derive_err (e : Engine) (s : State) : (derive e s).err = s.err := by
  rcases derive_cases e s with ⟨-, h⟩ | ⟨-, h⟩ <;> (rw [h]; try rfl)

theorem derive_get_same (e : Engine) (s : State) :
    (derive e s).kv.get e = true ∧
      (derive e s).rk.get e = if s.kv.get e = true then s.rk.get e else ks (subKey s.mkReg e) := by
  rcases derive_cases e s with ⟨hk, h⟩ | ⟨hk, h⟩ <;> rw [h] <;> simp [hk, expand]

theorem derive_get_other (e g : Engine) (s : State) (hg : g ≠ e) :
    (derive e s).kv.get g = s.kv.get g ∧ (derive e s).rk.get g = s.rk.get g := by
  rcases derive_cases e s with ⟨-, h⟩ | ⟨-, h⟩ <;> rw [h] <;> simp [hg, expand]

theorem deriveAll_sameHostSide (s : State) : s.sameHostSide (deriveAll s) :=
  sameHostSide_trans (derive_sameHostSide .e1 s)
    (sameHostSide_trans (derive_sameHostSide .e2 _) (derive_sameHostSide .e3 _))

@[simp] theorem deriveAll_mkReg (s : State) : (deriveAll s).mkReg = s.mkReg :=
  (deriveAll_sameHostSide s).2.1

@[simp] theorem deriveAll_len (s : State) : (deriveAll s).len = s.len :=
  (deriveAll_sameHostSide s).2.2.1

@[simp] theorem deriveAll_inBuf (s : State) : (deriveAll s).inBuf = s.inBuf :=
  (deriveAll_sameHostSide s).2.2.2.1

@[simp] theorem deriveAll_outBuf (s : State) : (deriveAll s).outBuf = s.outBuf := by
  simp [deriveAll]

@[simp] theorem deriveAll_err (s : State) : (deriveAll s).err = s.err := by
  simp [deriveAll]

@[simp] theorem blockCount_deriveAll (s : State) : blockCount (deriveAll s) = blockCount s := by
  simp [blockCount]

theorem deriveAll_get (e : Engine) (s : State) :
    (deriveAll s).kv.get e = true ∧
      (deriveAll s).rk.get e = if s.kv.get e = true then s.rk.get e else ks (subKey s.mkReg e) := by
  have o2 := derive_get_other .e2
  have o3 := derive_get_other .e3
  cases e
  · rw [deriveAll, (o3 .e1 _ (by decide)).1, (o3 .e1 _ (by decide)).2, (o2 .e1 _ (by decide)).1,
      (o2 .e1 _ (by decide)).2]
    exact derive_get_same .e1 s
  · rw [deriveAll, (o3 .e2 _ (by decide)).1, (o3 .e2 _ (by decide)).2]
    have h := derive_get_same .e2 (derive .e1 s)
    rw [derive_mkReg, (derive_get_other .e1 .e2 s (by decide)).1, (derive_get_other .e1 .e2 s (by decide)).2] at h
    exact h
  · have h := derive_get_same .e3 (derive .e2 (derive .e1 s))
    rw [derive_mkReg, derive_mkReg, (o2 .e3 _ (by decide)).1, (o2 .e3 _ (by decide)).2,
      (derive_get_other .e1 .e3 s (by decide)).1, (derive_get_other .e1 .e3 s (by decide)).2] at h
    exact h

/-! The ECB loop (rules R133, R135, R136). -/

/-- What every block write inside the range keeps, the loop keeps. -/
theorem ecbLoop_keeps {dir : Dir} {rk : PerEngine Schedule} {inBuf out out' : Memory} (P : Memory → Prop)
    {m o : Nat} (hw : ∀ q p b, P q → o ≤ p → p + 8 ≤ o + 8 * m → P (q.writeBlock p b))
    (h : ecbLoop dir rk inBuf m o out = .ok out') (hp : P out) : P out' := by
  induction m generalizing o out with
  | zero =>
    simp only [ecbLoop, Except.ok.injEq] at h
    exact h ▸ hp
  | succ m ih =>
    simp only [ecbLoop] at h
    split at h
    · cases h
    · rename_i b _
      exact ih (fun q p b' hq h1 h2 => hw q p b' hq (by omega) (by omega)) h
        (hw out o _ hp (by omega) (by omega))

/-- The loop stops exactly where a byte of its input range holds no value, and names it. -/
theorem ecbLoop_eq_error {dir : Dir} {rk : PerEngine Schedule} {inBuf out : Memory} {m o a : Nat}
    (h : ecbLoop dir rk inBuf m o out = .error a) :
    o ≤ a ∧ a < o + 8 * m ∧ inBuf.read a = none ∧ ∀ y, o ≤ y → y < a → (inBuf.read y).isSome = true := by
  induction m generalizing o out with
  | zero => cases h
  | succ m ih =>
    simp only [ecbLoop] at h
    split at h
    · rename_i x hx
      cases h
      obtain ⟨h1, h2, h3, h4⟩ := Memory.readBytes_eq_error hx
      exact ⟨h1, by omega, h3, h4⟩
    · rename_i b hb
      obtain ⟨h1, h2, h3, h4⟩ := ih h
      refine ⟨by omega, by omega, h3, fun y hy1 hy2 => ?_⟩
      rcases Nat.lt_or_ge y (o + 8) with hlt | hge
      · have := Memory.readBlock_eq_ok.mp hb (y - o) (by omega)
        rw [show o + (y - o) = y by omega] at this
        simp [this]
      · exact h4 y hge hy2

/-- With the whole input range written the loop ends. -/
theorem ecbLoop_ends {dir : Dir} {rk : PerEngine Schedule} {inBuf : Memory} (out : Memory) {m o : Nat}
    (h : ∀ a, o ≤ a → a < o + 8 * m → (inBuf.read a).isSome = true) :
    ∃ out', ecbLoop dir rk inBuf m o out = .ok out' := by
  cases hl : ecbLoop dir rk inBuf m o out with
  | ok out' => exact ⟨out', rfl⟩
  | error a =>
    obtain ⟨h1, h2, h3, -⟩ := ecbLoop_eq_error hl
    have := h a h1 h2
    rw [h3] at this
    cases this

/-! The two shapes of data command. -/

/-- What `DESE` and `DESD` can do: the exception, the model's stop, or one block. -/
theorem execSingle_cases (dir : Dir) (e : Engine) (s : State) :
    (∃ x, checkLen .oneBlock s = some x ∧ execSingle dir e s = .next (s.setErr x)) ∨
    (checkLen .oneBlock s = none ∧ ∃ a, s.inBuf.readBlock 0 = .error a ∧
      execSingle dir e s = .fault (.unwrittenIn a)) ∨
    (checkLen .oneBlock s = none ∧ ∃ b, s.inBuf.readBlock 0 = .ok b ∧
      execSingle dir e s = .next (((derive e s).setOut
        (s.outBuf.writeBlock 0 (des dir ((derive e s).rk.get e) b))).setErr .none)) := by
  simp only [execSingle, raise, complete]
  cases hc : checkLen .oneBlock s with
  | some x => exact .inl ⟨x, rfl, rfl⟩
  | none =>
    simp only [derive_inBuf]
    cases hb : s.inBuf.readBlock 0 with
    | error a => exact .inr (.inl ⟨trivial, a, rfl, rfl⟩)
    | ok b => exact .inr (.inr ⟨trivial, b, rfl, by simp⟩)

/-- What `ECBD` and `ECBE` can do: the exception, the model's stop, or the whole buffer. -/
theorem execEcb_cases (dir : Dir) (s : State) :
    (∃ x, checkLen .wholeBlocks s = some x ∧ execEcb dir s = .next (s.setErr x)) ∨
    (checkLen .wholeBlocks s = none ∧ ∃ a,
      ecbLoop dir (deriveAll s).rk s.inBuf (blockCount s) 0 s.outBuf = .error a ∧
      execEcb dir s = .fault (.unwrittenIn a)) ∨
    (checkLen .wholeBlocks s = none ∧ ∃ out,
      ecbLoop dir (deriveAll s).rk s.inBuf (blockCount s) 0 s.outBuf = .ok out ∧
      execEcb dir s = .next (((deriveAll s).setOut out).setErr .none)) := by
  simp only [execEcb, raise, complete]
  cases hc : checkLen .wholeBlocks s with
  | some x => exact .inl ⟨x, rfl, rfl⟩
  | none =>
    simp only [deriveAll_inBuf, deriveAll_outBuf, blockCount_deriveAll]
    cases hb : ecbLoop dir (deriveAll s).rk s.inBuf (blockCount s) 0 s.outBuf with
    | error a => exact .inr (.inl ⟨trivial, a, rfl, rfl⟩)
    | ok b => exact .inr (.inr ⟨trivial, b, rfl, rfl⟩)

/-- `DESE` and `DESD` answering a next state. -/
theorem execSingle_next_cases {dir : Dir} {e : Engine} {s t : State} (h : execSingle dir e s = .next t) :
    (∃ x, x ≠ .none ∧ t = s.setErr x) ∨
    (checkLen .oneBlock s = none ∧ ∃ b, s.inBuf.readBlock 0 = .ok b ∧
      t = ((derive e s).setOut (s.outBuf.writeBlock 0 (des dir ((derive e s).rk.get e) b))).setErr .none) := by
  rcases execSingle_cases dir e s with ⟨x, hx, he⟩ | ⟨-, a, -, he⟩ | ⟨hc, b, hb, he⟩ <;> rw [he] at h <;> cases h
  · exact .inl ⟨x, fun hn => checkLen_ne_code_none _ _ (hn ▸ hx), rfl⟩
  · exact .inr ⟨hc, b, hb, rfl⟩

/-- `ECBD` and `ECBE` answering a next state. -/
theorem execEcb_next_cases {dir : Dir} {s t : State} (h : execEcb dir s = .next t) :
    (∃ x, x ≠ .none ∧ t = s.setErr x) ∨
    (checkLen .wholeBlocks s = none ∧ ∃ out,
      ecbLoop dir (deriveAll s).rk s.inBuf (blockCount s) 0 s.outBuf = .ok out ∧
      t = ((deriveAll s).setOut out).setErr .none) := by
  rcases execEcb_cases dir s with ⟨x, hx, he⟩ | ⟨-, a, -, he⟩ | ⟨hc, out, hl, he⟩ <;> rw [he] at h <;> cases h
  · exact .inl ⟨x, fun hn => checkLen_ne_code_none _ _ (hn ▸ hx), rfl⟩
  · exact .inr ⟨hc, out, hl, rfl⟩

/-- What a command that answers a next state did: an exception, a key schedule, one block, or the whole buffer. -/
theorem exec_next_cases {i : Instr} {s t : State} (h : exec i s = .next t) :
    ((∀ e, i ≠ .ksx e) ∧ ∃ x, x ≠ .none ∧ t = s.setErr x) ∨
    (∃ e, i = .ksx e ∧ t = (expand e s).setErr .none) ∨
    (∃ dir e b, (i = .dese e ∨ i = .desd e) ∧ checkLen .oneBlock s = none ∧ s.inBuf.readBlock 0 = .ok b ∧
      t = ((derive e s).setOut (s.outBuf.writeBlock 0 (des dir ((derive e s).rk.get e) b))).setErr .none) ∨
    (∃ dir out, (i = .ecbd ∨ i = .ecbe) ∧ checkLen .wholeBlocks s = none ∧
      ecbLoop dir (deriveAll s).rk s.inBuf (blockCount s) 0 s.outBuf = .ok out ∧
      t = ((deriveAll s).setOut out).setErr .none) := by
  cases i with
  | ksx e =>
    cases h
    exact .inr (.inl ⟨e, rfl, rfl⟩)
  | dese e =>
    rcases execSingle_next_cases (dir := .enc) (e := e) h with hx | ⟨hc, b, hb, ht⟩
    · exact .inl ⟨by simp, hx⟩
    · exact .inr (.inr (.inl ⟨.enc, e, b, .inl rfl, hc, hb, ht⟩))
  | desd e =>
    rcases execSingle_next_cases (dir := .dec) (e := e) h with hx | ⟨hc, b, hb, ht⟩
    · exact .inl ⟨by simp, hx⟩
    · exact .inr (.inr (.inl ⟨.dec, e, b, .inr rfl, hc, hb, ht⟩))
  | ecbd =>
    rcases execEcb_next_cases (dir := .dec) h with hx | ⟨hc, out, hl, ht⟩
    · exact .inl ⟨by simp, hx⟩
    · exact .inr (.inr (.inr ⟨.dec, out, .inl rfl, hc, hl, ht⟩))
  | ecbe =>
    rcases execEcb_next_cases (dir := .enc) h with hx | ⟨hc, out, hl, ht⟩
    · exact .inl ⟨by simp, hx⟩
    · exact .inr (.inr (.inr ⟨.enc, out, .inr rfl, hc, hl, ht⟩))

/-! A step. -/

/-- What a step that answers a next state did: nothing, with no transaction pending, or the oldest one. -/
theorem step_next_cases {s t : State} (h : step s = .next t) :
    (s.pending = [] ∧ t = s) ∨ ∃ op ts, s.pending = op :: ts ∧ hostStep op (s.setPending ts) = .next t := by
  simp only [step, takeNext] at h
  cases hp : s.pending with
  | nil =>
    simp only [hp] at h
    cases h
    exact .inl ⟨rfl, rfl⟩
  | cons op ts =>
    simp only [hp] at h
    exact .inr ⟨op, ts, rfl, h⟩

/-- What `H_CMD` that answers a next state did: the command, or `IllegalCommand`. -/
theorem hostCmd_next_cases {w : Byte} {s t : State} (h : hostCmd w s = .next t) :
    (∃ i, decode w = .ok i ∧ exec i s = .next t) ∨ ((∃ x, decode w = .error x) ∧ t = s.setErr .illegalCommand) := by
  simp only [hostCmd] at h
  cases hd : decode w with
  | ok i =>
    simp only [hd] at h
    exact .inl ⟨i, rfl, h⟩
  | error x =>
    simp only [hd, raise] at h
    cases h
    exact .inr ⟨⟨x, rfl⟩, rfl⟩

/-- What a transaction that answers a next state did, kind by kind. -/
theorem hostStep_next_cases {op : HostOp} {s t : State} (h : hostStep op s = .next t) :
    (op = .reset ∧ t = s.hReset) ∨
    (∃ a b, op = .wrIn a b ∧ a < s.bufMax ∧ t = s.setIn (s.inBuf.write a b)) ∨
    (∃ n, op = .wrLen n ∧ t = s.setLen n) ∨
    (∃ w, op = .cmd w ∧ hostCmd w s = .next t) ∨
    (∃ v, (∀ w, op ≠ .cmd w) ∧ t = s.returns v) := by
  cases op with
  | reset =>
    cases h
    exact .inl ⟨rfl, rfl⟩
  | wrIn a b =>
    simp only [hostStep, hostWrIn] at h
    split at h
    · cases h
      exact .inr (.inl ⟨a, b, rfl, by assumption, rfl⟩)
    · cases h
  | rdIn a =>
    simp only [hostStep, hostRdIn] at h
    split at h
    · split at h
      · cases h
        exact .inr (.inr (.inr (.inr ⟨_, by simp, rfl⟩)))
      · cases h
    · cases h
  | wrLen n =>
    cases h
    exact .inr (.inr (.inl ⟨n, rfl, rfl⟩))
  | rdLen =>
    cases h
    exact .inr (.inr (.inr (.inr ⟨_, by simp, rfl⟩)))
  | cmd w => exact .inr (.inr (.inr (.inl ⟨w, rfl, h⟩)))
  | rdStatus =>
    cases h
    exact .inr (.inr (.inr (.inr ⟨_, by simp, rfl⟩)))
  | rdOut a =>
    simp only [hostStep, hostRdOut] at h
    split at h
    · split at h
      · cases h
        exact .inr (.inr (.inr (.inr ⟨_, by simp, rfl⟩)))
      · cases h
    · cases h

/-- The memory of the state after reset is in canonical form. -/
theorem reset_memoryOk (c : Config) : (State.resetOf c).memoryOk :=
  ⟨rfl, rfl, rfl, rfl⟩

end Sys2Proof.Machine
end

