-- ==== Sys2Proof/Laws/PerInstr.lean ====
section
/-! SUPPORT. Statements about every command as syntax, one lemma per constructor of `Instr`. -/

namespace Sys2Proof.Laws.AssignedWord

/-- The fields of a command's word are assigned (rules R60, R61), and its word is one of the row's match under the row's
mask with the engine field as the row's condition asks. -/
def Statement (i : Instr) : Prop :=
  (unpack (encode i)).wellFormed = true ∧
    match i with
    | .ksx _ => encode i &&& 0xFC = 0x10 ∧ encode i &&& 0x03 ≠ 0
    | .dese _ => encode i &&& 0xFC = 0x20 ∧ encode i &&& 0x03 ≠ 0
    | .desd _ => encode i &&& 0xFC = 0x30 ∧ encode i &&& 0x03 ≠ 0
    | .ecbd => encode i &&& 0xFF = 0x40
    | .ecbe => encode i &&& 0xFF = 0x50

theorem ksx (e : Engine) : Statement (.ksx e) := by
  unfold Statement
  cases e <;> decide

theorem dese (e : Engine) : Statement (.dese e) := by
  unfold Statement
  cases e <;> decide

theorem desd (e : Engine) : Statement (.desd e) := by
  unfold Statement
  cases e <;> decide

theorem ecbd : Statement .ecbd := by
  unfold Statement
  decide

theorem ecbe : Statement .ecbe := by
  unfold Statement
  decide

end Sys2Proof.Laws.AssignedWord
end

