-- ==== Sys2Proof/Tests/Slice0.lean ====
section
/-! SUPPORT. Tests of the model against the printed values of 95_test_vectors.md, and a witness for the hypotheses of each
obligation that has some. Expected values are the spec's; each test names its vector or rule. -/

namespace Sys2Proof.Tests

-- One theorem after the other: side by side, their threads together pass the memory limit of the check.
set_option Elab.async false

open Sys2Proof Sys2Proof.Machine

/-! ## Helpers -/

/-- Eight bytes from their hexadecimal form (rule R11). -/
def blk (n : BitVec 64) : Block := bytesOf 8 n

/-- A master key from its three sub-keys (rule R66). -/
def mk3 (a b c : BitVec 64) : Vector Byte 24 := bytesOf 8 a ++ bytesOf 8 b ++ bytesOf 8 c

/-- A core after reset with the key of V9 and `BUF_MAX = 8 * n`. -/
def core9 (n : Fin 536870912) : State :=
  State.resetOf ⟨mk3 0x0123456789ABCDEF 0x23456789ABCDEF01 0x456789ABCDEF0123, n⟩

/-- A core after reset with the keys of P1 and `BUF_MAX = 8`. -/
def core1 : State :=
  State.resetOf ⟨mk3 0x133457799BBCDFF1 0x0123456789ABCDEF 0xFEFEFEFEFEFEFEFE, 1⟩

/-- Bytes of a list of blocks. -/
def bytes (bs : List (BitVec 64)) : List Byte := bs.flatMap fun n => (blk n).toList

/-- The host has written blocks from `IN[0]` on and `LEN`. -/
def loaded (s : State) (bs : List (BitVec 64)) (n : BitVec 32) : State :=
  { s with inBuf := Memory.writeBytes [] 0 (bytes bs), len := n }

/-- The first two ciphertext blocks of V9 in a 16-byte buffer, `LEN = 16`, engine 2 derived. -/
def ready : State := expand .e2 (loaded (core9 2) [0xA826FD8CE53B855F, 0xCCE21C8112256FE6] 16)

/-- One block in an 8-byte buffer (P1), `LEN = 8`. -/
def oneBlock : State := loaded core1 [0x0123456789ABCDEF] 8

/-- `ERR` and `STATUS` after an outcome. -/
def statusOf : Host.Outcome State Fault Refusal → Option Byte
  | .next t => some (statusReg t)
  | _ => none

/-- `OUT[a .. a+n-1]` after an outcome. -/
def outOf (a n : Nat) : Host.Outcome State Fault Refusal → List (Option Byte)
  | .next t => (List.range n).map fun j => t.outBuf.read (a + j)
  | _ => []

/-- A round subkey after an outcome. -/
def keyOf (e : Engine) (i : Fin 16) : Host.Outcome State Fault Refusal → Option RoundKey
  | .next t => some (t.rk.get e)[i]
  | _ => none

/-! ## Encoding: the words of rule R61, bit by bit `op z e`, and the illegal groups of rule R64 -/

theorem test_decode_ksx : decodeTableWord 8 0b0001_00_01 = some (.ksx .e1) ∧
    decodeTableWord 8 0b0001_00_10 = some (.ksx .e2) ∧ decodeTableWord 8 0b0001_00_11 = some (.ksx .e3) := by decide

theorem test_decode_dese : decodeTableWord 8 0b0010_00_01 = some (.dese .e1) ∧
    decodeTableWord 8 0b0010_00_10 = some (.dese .e2) ∧ decodeTableWord 8 0b0010_00_11 = some (.dese .e3) := by decide

theorem test_decode_desd : decodeTableWord 8 0b0011_00_01 = some (.desd .e1) ∧
    decodeTableWord 8 0b0011_00_10 = some (.desd .e2) ∧ decodeTableWord 8 0b0011_00_11 = some (.desd .e3) := by decide

theorem test_decode_ecbd : decodeTableWord 8 0b0100_00_00 = some .ecbd := by decide

theorem test_decode_ecbe : decodeTableWord 8 0b0101_00_00 = some .ecbe := by decide

theorem test_encode_words : [encode (.ksx .e2), encode (.dese .e1), encode (.desd .e3), encode .ecbd, encode .ecbe] =
    [0x12, 0x21, 0x33, 0x40, 0x50] := by decide

/-- The spot checks of V14: no illegal word decodes. -/
theorem test_decode_illegal_words :
    ∀ w ∈ [0x10, 0x14, 0x20, 0x30, 0x41, 0x42, 0x43, 0x51, 0x60, 0x00, 0xFF], decodeTableWord 8 w = none := by decide

theorem test_reserved_bits_refused :
    CmdFields.wellFormed ⟨4, 1, 0⟩ = false ∧ decode 0b0100_01_00 = .error .reservedBits := ⟨by decide, rfl⟩

theorem test_unassigned_op_refused :
    CmdFields.wellFormed ⟨6, 0, 0⟩ = false ∧ decode 0b0110_00_00 = .error .unassignedOp := ⟨by decide, rfl⟩

theorem test_no_engine_refused :
    CmdFields.wellFormed ⟨1, 0, 0⟩ = false ∧ decode 0b0001_00_00 = .error .noEngine := ⟨by decide, rfl⟩

theorem test_engine_not_taken_refused :
    CmdFields.wellFormed ⟨4, 0, 1⟩ = false ∧ decode 0b0100_00_01 = .error .engineNotTaken := ⟨by decide, rfl⟩

/-- The fields that are well formed are those of the eleven words (rule R61). -/
theorem test_well_formed_fields : CmdFields.wellFormed ⟨1, 0, 3⟩ = true ∧ CmdFields.wellFormed ⟨5, 0, 0⟩ = true := by decide

/-! ## The pure functions (V0, V1, V2, V6, V8) -/

theorem test_primitives : perm 8 [8, 7, 6, 5, 4, 3, 2, 1] (0xB4 : Byte) = 0x2D ∧ perm 3 [2, 1, 2] (0b10 : BitVec 2) = 0b010 ∧
    rotl28 0x8000001 1 = 0x0000003 ∧ rotl28 0xF0CCAAF 2 = 0xC332ABF := by decide

theorem test_byte_order : bytesOf 6 0x1B02EFFC7072 = #v[0x1B, 0x02, 0xEF, 0xFC, 0x70, 0x72] ∧
    desBit (be (#v[0x80, 0, 0, 0, 0, 0, 0, 1] : Block)) 1 = true ∧ be (blk 0x0123456789ABCDEF) = 0x0123456789ABCDEF := by
  decide

/-- V1: the halves of round 0 and rounds 1 and 16 (`C_16 = C_0`, `D_16 = D_0`). -/
theorem test_key_halves : cd 0x133457799BBCDFF1 0 = (0xF0CCAAF, 0x556678F) ∧
    cd 0x133457799BBCDFF1 1 = (0xE19955F, 0xAACCF1E) ∧ cd 0x133457799BBCDFF1 16 = (0xF0CCAAF, 0x556678F) := by
  decide +kernel

/-- V1: all sixteen subkeys. -/
theorem test_key_schedule : ks (blk 0x133457799BBCDFF1) =
    #v[0x1B02EFFC7072, 0x79AED9DBC9E5, 0x55FC8A42CF99, 0x72ADD6DB351D, 0x7CEC07EB53A8, 0x63A53E507B2F, 0xEC84B7F618BC,
      0xF78A3AC13BFB, 0xE0DBEBEDE781, 0xB1F347BA464F, 0x215FD3DED386, 0x7571F59467E9, 0x97C5D1FABA41, 0x5F43B7F2E73A,
      0xBF918D3D3F0A, 0xCB3D8B0E17F5] := by decide +kernel

/-- V8: expansion, substitution, permutation, round function. -/
theorem test_round_parts : ef 0xF0AAF0AA = 0x7A15557A1555 ∧ ef 0x80000000 = 0x400000000001 ∧
    sub 0x6117BA866527 = 0x5C82B597 ∧ sub 0 = 0xEFA72C4D ∧ sub 0xFFFFFFFFFFFF = 0xD9CE3DCB ∧ pf 0x5C82B597 = 0x234AA9BB ∧
    roundF 0xF0AAF0AA 0x1B02EFFC7072 = 0x234AA9BB := by decide +kernel

/-- V8: the two permutations of a block. -/
theorem test_block_permutations : ipf 0x0123456789ABCDEF = 0xCC00CCFFF0AAF0AA ∧ ipf 1 = 0x0000008000000000 ∧
    ipInv 0x0123456789ABCDEF = 0xFF330FAA00330FAA ∧ ipInv 0x0A4CD99543423234 = 0x85E813540F0AB405 := by decide +kernel

/-- V2 (rows 1 and 16 of the trace). -/
theorem test_encrypt_trace :
    halvesAfter .enc (ks (blk 0x133457799BBCDFF1)) (startHalves 0x0123456789ABCDEF) 1 = (0xF0AAF0AA, 0xEF4A6544) ∧
    halvesAfter .enc (ks (blk 0x133457799BBCDFF1)) (startHalves 0x0123456789ABCDEF) 16 = (0x43423234, 0x0A4CD995) := by
  decide +kernel

/-- V6: a row whose two directions differ. -/
theorem test_des_zero_block :
    des .enc (ks (blk 0x0123456789ABCDEF)) (blk 0) = blk 0xD5D44FF720683D0D ∧
    des .dec (ks (blk 0x0123456789ABCDEF)) (blk 0) = blk 0x14AAD7F4DBB4E094 := by decide +kernel

/-- Rule R89: row 1 of the printed table `SEL`. -/
theorem test_selection_row_1 : (List.range 48).map (fun j => keyBitOf 1 (j + 1)) =
    [10, 51, 34, 60, 49, 17, 33, 57, 2, 9, 19, 42, 3, 35, 26, 25, 44, 58, 59, 1, 36, 27, 18, 41,
     22, 28, 39, 54, 37, 4, 47, 30, 5, 53, 23, 29, 61, 21, 38, 63, 15, 20, 45, 14, 13, 62, 55, 31] := by
  decide +kernel

/-- Rule R89: row 9 of the printed table `SEL`. -/
theorem test_selection_row_9 : (List.range 48).map (fun j => keyBitOf 9 (j + 1)) =
    [57, 33, 52, 42, 2, 35, 51, 10, 49, 27, 1, 60, 50, 17, 44, 43, 26, 11, 41, 19, 18, 9, 36, 59,
     4, 46, 53, 5, 23, 22, 61, 12, 54, 39, 37, 15, 47, 7, 20, 14, 29, 38, 31, 63, 62, 13, 6, 45] := by
  decide +kernel

/-- Rule R89: row 16 of the printed table `SEL`. -/
theorem test_selection_row_16 : (List.range 48).map (fun j => keyBitOf 16 (j + 1)) =
    [18, 59, 42, 3, 57, 25, 41, 36, 10, 17, 27, 50, 11, 43, 34, 33, 52, 1, 2, 9, 44, 35, 26, 49,
     30, 5, 47, 62, 45, 12, 55, 38, 13, 61, 31, 37, 6, 29, 46, 4, 23, 28, 53, 22, 21, 7, 63, 39] := by
  decide +kernel

/-- An S-box of rule R105 read by the 6-bit value of its group. -/
def flat (t : List Nat) : List Nat := (List.range 64).map fun g => (sbox t (BitVec.ofNat 6 g)).toNat

/-- Rule R114: `SFLAT_1`. -/
theorem test_sbox_1 : flat sbox1Table =
    [14, 0, 4, 15, 13, 7, 1, 4, 2, 14, 15, 2, 11, 13, 8, 1,
     3, 10, 10, 6, 6, 12, 12, 11, 5, 9, 9, 5, 0, 3, 7, 8,
     4, 15, 1, 12, 14, 8, 8, 2, 13, 4, 6, 9, 2, 1, 11, 7,
     15, 5, 12, 11, 9, 3, 7, 14, 3, 10, 10, 0, 5, 6, 0, 13] := by
  decide +kernel

/-- Rule R114: `SFLAT_2`. -/
theorem test_sbox_2 : flat sbox2Table =
    [15, 3, 1, 13, 8, 4, 14, 7, 6, 15, 11, 2, 3, 8, 4, 14,
     9, 12, 7, 0, 2, 1, 13, 10, 12, 6, 0, 9, 5, 11, 10, 5,
     0, 13, 14, 8, 7, 10, 11, 1, 10, 3, 4, 15, 13, 4, 1, 2,
     5, 11, 8, 6, 12, 7, 6, 12, 9, 0, 3, 5, 2, 14, 15, 9] := by
  decide +kernel

/-- Rule R114: `SFLAT_3`. -/
theorem test_sbox_3 : flat sbox3Table =
    [10, 13, 0, 7, 9, 0, 14, 9, 6, 3, 3, 4, 15, 6, 5, 10,
     1, 2, 13, 8, 12, 5, 7, 14, 11, 12, 4, 11, 2, 15, 8, 1,
     13, 1, 6, 10, 4, 13, 9, 0, 8, 6, 15, 9, 3, 8, 0, 7,
     11, 4, 1, 15, 2, 14, 12, 3, 5, 11, 10, 5, 14, 2, 7, 12] := by
  decide +kernel

/-- Rule R114: `SFLAT_4`. -/
theorem test_sbox_4 : flat sbox4Table =
    [7, 13, 13, 8, 14, 11, 3, 5, 0, 6, 6, 15, 9, 0, 10, 3,
     1, 4, 2, 7, 8, 2, 5, 12, 11, 1, 12, 10, 4, 14, 15, 9,
     10, 3, 6, 15, 9, 0, 0, 6, 12, 10, 11, 1, 7, 13, 13, 8,
     15, 9, 1, 4, 3, 5, 14, 11, 5, 12, 2, 7, 8, 2, 4, 14] := by
  decide +kernel

/-- Rule R114: `SFLAT_5`. -/
theorem test_sbox_5 : flat sbox5Table =
    [2, 14, 12, 11, 4, 2, 1, 12, 7, 4, 10, 7, 11, 13, 6, 1,
     8, 5, 5, 0, 3, 15, 15, 10, 13, 3, 0, 9, 14, 8, 9, 6,
     4, 11, 2, 8, 1, 12, 11, 7, 10, 1, 13, 14, 7, 2, 8, 13,
     15, 6, 9, 15, 12, 0, 5, 9, 6, 10, 3, 4, 0, 5, 14, 3] := by
  decide +kernel

/-- Rule R114: `SFLAT_6`. -/
theorem test_sbox_6 : flat sbox6Table =
    [12, 10, 1, 15, 10, 4, 15, 2, 9, 7, 2, 12, 6, 9, 8, 5,
     0, 6, 13, 1, 3, 13, 4, 14, 14, 0, 7, 11, 5, 3, 11, 8,
     9, 4, 14, 3, 15, 2, 5, 12, 2, 9, 8, 5, 12, 15, 3, 10,
     7, 11, 0, 14, 4, 1, 10, 7, 1, 6, 13, 0, 11, 8, 6, 13] := by
  decide +kernel

/-- Rule R114: `SFLAT_7`. -/
theorem test_sbox_7 : flat sbox7Table =
    [4, 13, 11, 0, 2, 11, 14, 7, 15, 4, 0, 9, 8, 1, 13, 10,
     3, 14, 12, 3, 9, 5, 7, 12, 5, 2, 10, 15, 6, 8, 1, 6,
     1, 6, 4, 11, 11, 13, 13, 8, 12, 1, 3, 4, 7, 10, 14, 7,
     10, 9, 15, 5, 6, 0, 8, 15, 0, 14, 5, 2, 9, 3, 2, 12] := by
  decide +kernel

/-- Rule R114: `SFLAT_8`. -/
theorem test_sbox_8 : flat sbox8Table =
    [13, 1, 2, 15, 8, 13, 4, 8, 6, 10, 15, 3, 11, 7, 1, 4,
     10, 12, 9, 5, 3, 6, 14, 11, 5, 0, 0, 14, 12, 9, 7, 2,
     7, 2, 11, 1, 4, 14, 1, 7, 9, 4, 12, 10, 14, 8, 2, 13,
     0, 15, 6, 12, 10, 9, 13, 0, 15, 3, 3, 5, 5, 6, 8, 11] := by
  decide +kernel

/-! ## The commands (V1, V2, V9, V13, P1 to P6) -/

/-- P1: `KSX 1` on a core just reset: `STATUS = 0x10` and the subkeys of V1. -/
theorem test_ksx : statusOf (exec (.ksx .e1) core1) = some 0x10 ∧ keyOf .e1 0 (exec (.ksx .e1) core1) = some 0x1B02EFFC7072 ∧
    keyOf .e1 15 (exec (.ksx .e1) core1) = some 0xCB3D8B0E17F5 := by decide +kernel

/-- P1: `DESE 1` of V2's block, engine 1 derived on first use. -/
theorem test_dese : outOf 0 8 (exec (.dese .e1) oneBlock) = [0x85, 0xE8, 0x13, 0x54, 0x0F, 0x0A, 0xB4, 0x05].map some ∧
    statusOf (exec (.dese .e1) oneBlock) = some 0x10 := by decide +kernel

/-- P1: the `DESE 3` of its last step (weak key), here with only engine 3 derived. -/
theorem test_dese_engine_3 : outOf 0 8 (exec (.dese .e3) (loaded core1 [0x85E813540F0AB405] 8)) =
    [0xDE, 0x38, 0x80, 0x81, 0x79, 0x5B, 0x87, 0xEF].map some := by decide +kernel

/-- P1: `DESD 1` of the ciphertext of V2. -/
theorem test_desd : outOf 0 8 (exec (.desd .e1) (loaded core1 [0x85E813540F0AB405] 8)) =
    [0x01, 0x23, 0x45, 0x67, 0x89, 0xAB, 0xCD, 0xEF].map some := by decide +kernel

/-- V13, F20: `DESD 1` of the first block of V9. -/
theorem test_desd_v13 : outOf 0 8 (exec (.desd .e1) (loaded (core9 4) [0xA826FD8CE53B855F] 8)) =
    [0x76, 0x91, 0x6B, 0xDA, 0x81, 0x32, 0xBF, 0x13].map some := by decide +kernel

/-- P2: the second block of `ECBD`, and `STATUS = 0x70`. -/
theorem test_ecbd : outOf 8 8 (exec .ecbd ready) = [0x6B, 0x20, 0x62, 0x72, 0x6F, 0x77, 0x6E, 0x20].map some ∧
    statusOf (exec .ecbd ready) = some 0x70 := by decide +kernel

/-- P4: the second block of `ECBE`. -/
theorem test_ecbe : outOf 8 8 (exec .ecbe (loaded (core9 2) [0x5468652071756663, 0x6B2062726F776E20] 16)) =
    [0xCC, 0xE2, 0x1C, 0x81, 0x12, 0x25, 0x6F, 0xE6].map some := by decide +kernel

/-- The exceptions of V13, here with engine 2 alone derived (bit 5): F1 `SizeError`, F5 `ContractViolation`, F10
`CapacityError` before size, F18 `IllegalCommand` before capacity. -/
theorem test_exceptions :
    statusOf (exec .ecbd (ready.setLen 10)) = some 0x21 ∧ statusOf (exec (.dese .e1) (ready.setLen 16)) = some 0x22 ∧
    statusOf (exec .ecbd (ready.setLen 36)) = some 0x23 ∧ statusOf (hostStep (.cmd 0xFF) (ready.setLen 40)) = some 0x24 := by
  decide +kernel

/-- V13, F13: a byte the host has not written has no result (rule R55). -/
theorem test_unwritten_input : exec .ecbd (loaded (core9 4) [0] 16) = .fault (.unwrittenIn 8) := by rfl

/-! ## The machine around the commands -/

/-- Rule R33: right after power-on `ECBD` is an empty buffer's success and `DESE 1` a contract violation (P5). -/
theorem test_first_command :
    statusOf (step (State.reset.withFetchWord 8 0x40)) = some 0x70 ∧
    statusOf (step (State.reset.withFetchWord 8 0x21)) = some 0x02 ∧
    statusOf (step (State.reset.withFetchWord 8 0x10)) = some 0x04 := by decide +kernel

/-- Rule R180: `H_RESET` of a used core. -/
theorem test_host_reset : statusOf (hostStep .reset (ready.setErr .sizeError)) = some 0x00 := by decide +kernel

/-- Rules R26 to R28: the register numbers. -/
theorem test_register_numbers : registerRead 1 = some .rdStatus ∧ registerRead 2 = some .rdLen ∧ registerRead 0 = none ∧
    registerWrite 0 0x40 = some (.cmd 0x40) ∧ registerWrite 2 24 = some (.wrLen 24) ∧ registerWrite 1 0 = none := by decide

/-- A byte space keeps its form: writing below, between and over the listed addresses. -/
theorem test_memory_write : Memory.write [(3, 1), (7, 2)] 5 9 = [(3, 1), (5, 9), (7, 2)] ∧
    Memory.write [(3, 1), (7, 2)] 7 9 = [(3, 1), (7, 9)] ∧ Memory.write [(3, 1)] 0 9 = [(0, 9), (3, 1)] := by decide

/-- Rule R69: lines of P1 and P6. -/
theorem test_asm_lines : asmLine "KSX 1                       # derive".toList = some (.instr (.ksx .e1)) ∧
    asmLine ".in 0, 01 23 ef".toList = some (.inBytes 0 [0x01, 0x23, 0xEF]) ∧
    asmLine ".fill 0, 16, FF".toList = some (.fill 0 16 0xFF) ∧ asmLine ".word 0x10".toList = some (.word 0x10) := by
  decide +kernel

/-- Rule R69: "`KSX 0`" and "`ECBD 1`" are no statements. -/
theorem test_asm_refused : asmLine "KSX 0".toList = none ∧ asmLine "ECBD 1".toList = none := by decide +kernel

/-- Rule R70: `KSXALL` is three command words, `.out2in` a read and a write per byte. -/
theorem test_asm_ops : AsmStmt.ops [] .ksxAll = [.cmd 0x11, .cmd 0x12, .cmd 0x13] ∧
    AsmStmt.ops [(0, 7), (1, 8)] (.out2in 2) = [.rdOut 0, .wrIn 0 7, .rdOut 1, .wrIn 1 8] := by decide

/-! ## Witnesses: a state and operands that meet the hypotheses of each obligation, clause by clause -/

/-- The outcome is a next state. -/
def isNext : Host.Outcome State Fault Refusal → Bool
  | .next _ => true
  | _ => false

theorem exists_next {o : Host.Outcome State Fault Refusal} (h : isNext o = true) : ∃ t, o = .next t := by
  cases o with
  | next t => exact ⟨t, rfl⟩
  | fault r => simp [isNext] at h
  | refused r => simp [isNext] at h

theorem ready_inv : ready.Inv := by
  refine ⟨?_, rfl, ?_⟩
  · unfold State.memoryOk; decide +kernel
  · intro e h
    cases e
    · exact absurd h (by decide)
    · rfl
    · exact absurd h (by decide)

theorem ready_bufMax : ready.bufMax = 16 := by decide +kernel

theorem oneBlock_scheduleOk : oneBlock.scheduleOk := by
  intro e h
  cases e <;> exact absurd h (by decide)

/-- A Boolean reading of "every byte of `IN[0 .. n-1]` is written". -/
theorem inputReady_of_all {s : State} {n : Nat} (h : ∀ a : Fin n, (s.inBuf.read a.val).isSome = true) : s.inputReady n :=
  fun a ha => h ⟨a, ha⟩

theorem ready_inputReady : ready.inputReady 16 := inputReady_of_all (by decide +kernel)

/-- ElevenWordsDecode, EncodeOfDecode: the last word of each operation. -/
theorem witness_decoding_words : decode 0x13 = .ok (.ksx .e3) ∧ decode 0x23 = .ok (.dese .e3) ∧
    decode 0x33 = .ok (.desd .e3) ∧ decode 0x40 = .ok .ecbd ∧ decode 0x50 = .ok .ecbe := ⟨rfl, rfl, rfl, rfl, rfl⟩

/-- IllegalCommandTaken: the lowest and highest words and the neighbours of assigned ones. -/
theorem witness_unassigned_words :
    ∀ w ∈ ([0x00, 0x10, 0x14, 0x20, 0x24, 0x34, 0x41, 0x51, 0xFF] : List Byte), w ∉ assignedWords.map Prod.fst := by decide

/-- StepRunsCommand, StepFollowsHostOrder (first clause). -/
theorem witness_command_pending : (ready.setPending [.cmd 0x40, .rdLen]).pending = .cmd 0x40 :: [.rdLen] ∧
    decode 0x40 = .ok .ecbd := ⟨rfl, rfl⟩

/-- StepFollowsHostOrder (second clause). -/
theorem witness_nothing_pending : ready.pending = [] := rfl

/-- StepKeepsInvariant, StepKeepsMasterKey: an invariant state with written bytes and a valid engine, whose step writes
the last byte of the buffer. -/
theorem witness_invariant_step :
    (ready.setPending [.wrIn 15 0xAB]).Inv ∧ (ready.setPending [.wrIn 15 0xAB]).keyOk ∧
      ∃ t, step (ready.setPending [.wrIn 15 0xAB]) = .next t :=
  ⟨⟨ready_inv.memory, ready_inv.key, ready_inv.schedule⟩, ready_inv.key, exists_next (by decide +kernel)⟩

/-- The same for a step that runs a command. -/
theorem witness_invariant_command_step :
    (ready.setPending [.cmd 0x40]).Inv ∧ ∃ t, step (ready.setPending [.cmd 0x40]) = .next t :=
  ⟨⟨ready_inv.memory, ready_inv.key, ready_inv.schedule⟩, exists_next (by decide +kernel)⟩

/-- ReachableSchedulesAreKs: a reached state with a valid engine. -/
theorem witness_reachable_valid_engine :
    ∃ t : State, Host.Core.run Sys2Proof.core 1 ((State.resetOf ⟨mk3 1 2 3, 1⟩).setPending [.cmd 0x13]) = .next t ∧
      t.kv.get .e3 = true := ⟨_, rfl, rfl⟩

/-- CommandsKeepHostSide, CommandMemoryFrame, ExceptionsArePrecise: each command completes in some state. -/
theorem witness_commands_complete : (∃ t, exec (.ksx .e1) ready = .next t ∧ t.err = .none) ∧
    (∃ t, exec (.dese .e2) oneBlock = .next t ∧ t.err = .none) ∧ (∃ t, exec (.desd .e3) oneBlock = .next t ∧ t.err = .none) ∧
    (∃ t, exec .ecbd ready = .next t ∧ t.err = .none) ∧ ∃ t, exec .ecbe ready = .next t ∧ t.err = .none :=
  ⟨⟨_, rfl, rfl⟩, ⟨_, rfl, rfl⟩, ⟨_, rfl, rfl⟩, ⟨_, rfl, rfl⟩, ⟨_, rfl, rfl⟩⟩

/-- CommandMemoryFrame: its third clause, by an exception and by `KSX`; its fourth, by a data command. -/
theorem witness_memory_frame : (∃ t, exec .ecbe (ready.setLen 15) = .next t ∧ t.err ≠ .none) ∧
    isData (.ksx .e2) = false ∧ isData .ecbd = true ∧ 15 < ready.len.toNat ∧ ready.len.toNat ≤ 16 :=
  ⟨⟨_, rfl, by decide⟩, rfl, rfl, by decide, by decide⟩

/-- ValidBitsClearedOnlyByReset: a valid engine, a step that is no reset. -/
theorem witness_valid_engine_step : (ready.setPending [.cmd 0x40]).kv.get .e2 = true ∧
    (ready.setPending [.cmd 0x40]).pending.head? ≠ some .reset ∧ ∃ t, step (ready.setPending [.cmd 0x40]) = .next t :=
  ⟨rfl, by decide, exists_next (by decide +kernel)⟩

/-- HostAccessesKeepCoreState, HostNeverSeesKeys: a write and a read, neither a command nor the reset. -/
theorem witness_host_access : (HostOp.wrIn 15 7 ≠ .reset ∧ ∀ w, HostOp.wrIn 15 7 ≠ .cmd w) ∧
    (HostOp.rdIn 0 ≠ .reset ∧ ∀ w, HostOp.rdIn 0 ≠ .cmd w) ∧ (∃ t, hostStep (.wrIn 15 7) ready = .next t) ∧
    ∃ t, hostStep (.rdIn 0) ready = .next t :=
  ⟨⟨by decide, fun _ => by simp⟩, ⟨by decide, fun _ => by simp⟩, ⟨_, rfl⟩, _, rfl⟩

/-- HostWritesOneByte, HostReadsOneByte: the last address of the buffer, and each of the four clauses. -/
theorem witness_byte_addresses : 15 < ready.bufMax ∧ ready.inBuf.read 15 = some 0xE6 ∧ ready.outBuf.read 15 = none ∧
    (core9 2).inBuf.read 0 = none ∧ ({ ready with outBuf := [(15, 9)] } : State).outBuf.read 15 = some 9 := by
  decide +kernel

/-- NoByteBeyondCapacity: the first address outside. -/
theorem witness_address_outside : ready.bufMax ≤ 16 := by decide

/-- CapacityErrorTaken: one byte too many, and the largest length against the largest capacity. -/
theorem witness_over_capacity : isData .ecbd = true ∧ isData (.dese .e1) = true ∧ isData (.desd .e3) = true ∧
    isData .ecbe = true ∧ (ready.setLen 17).bufMax < (ready.setLen 17).len.toNat ∧
    ((core9 536870911).setLen 0xFFFFFFF9).bufMax < ((core9 536870911).setLen 0xFFFFFFF9).len.toNat := by decide

/-- SizeErrorTaken: lengths beside a multiple of 8. -/
theorem witness_ragged_length : ∀ n ∈ ([1, 7, 9, 15] : List (BitVec 32)),
    (ready.setLen n).len.toNat ≤ (ready.setLen n).bufMax ∧ (ready.setLen n).len.toNat % 8 ≠ 0 := by
  simp [ready_bufMax]

/-- ContractViolationTaken: an empty, a short, a long and a full buffer. -/
theorem witness_not_one_block : ∀ n ∈ ([0, 7, 9, 16] : List (BitVec 32)),
    (ready.setLen n).len.toNat ≤ (ready.setLen n).bufMax ∧ (ready.setLen n).len.toNat ≠ 8 := by
  simp [ready_bufMax]

/-- ExceptionPriority: every code is reported somewhere, where several checks hold the first one. -/
theorem witness_reported_codes : reportedCode 0xFF (ready.setLen 17) = .illegalCommand ∧
    reportedCode 0x40 (ready.setLen 17) = .capacityError ∧ reportedCode 0x21 (ready.setLen 17) = .capacityError ∧
    reportedCode 0x33 ready = .contractViolation ∧ reportedCode 0x50 (ready.setLen 15) = .sizeError ∧
    reportedCode 0x12 (ready.setLen 17) = .none ∧ reportedCode 0x40 ready = .none ∧
    ∃ t, hostStep (.cmd 0x40) ready = .next t :=
  ⟨rfl, rfl, rfl, rfl, rfl, rfl, rfl, _, rfl⟩

/-- DeseResult, DesdResult: the smallest buffer that holds a block. -/
theorem witness_one_block : 8 ≤ oneBlock.bufMax ∧ oneBlock.len = 8 ∧
    ∀ j (h : j < 8), oneBlock.inBuf.read j = some (blk 0x0123456789ABCDEF)[j] := by
  refine ⟨by decide, rfl, ?_⟩
  have h : ∀ j : Fin 8, oneBlock.inBuf.read j.val = some (blk 0x0123456789ABCDEF)[j] := by decide +kernel
  exact fun j hj => h ⟨j, hj⟩

/-- EcbdResult, EcbeResult, RoundTripOnCore: an exactly filled buffer. -/
theorem witness_whole_buffer : ready.len.toNat ≤ ready.bufMax ∧ ready.len.toNat % 8 = 0 ∧ ready.inputReady ready.len.toNat :=
  ⟨by decide, by decide, ready_inputReady⟩

/-- EcbdResult, EcbeResult, EmptyBufferSucceeds: the empty buffer. -/
theorem witness_empty_buffer : (core9 0).len = 0 ∧ (core9 0).len.toNat ≤ (core9 0).bufMax ∧ (core9 0).len.toNat % 8 = 0 ∧
    (core9 0).inputReady (core9 0).len.toNat :=
  ⟨rfl, by decide, by decide, fun _ h => absurd h (Nat.not_lt_zero _)⟩

/-- UnwrittenInputStops: the last byte of the first block is missing, for each data command; and the first byte. -/
theorem witness_unwritten_input :
    (∀ i ∈ [Instr.dese .e1, .desd .e3, .ecbd, .ecbe], isData i = true ∧
      reportedCode (encode i) { ready with len := 8, inBuf := [0, 1, 2, 3, 4, 5, 6].map (·, 0) } = .none) ∧
    7 < (8 : BitVec 32).toNat ∧ Memory.read ([0, 1, 2, 3, 4, 5, 6].map (·, (0 : Byte))) 7 = none ∧
    (∀ y, y < 7 → (Memory.read ([0, 1, 2, 3, 4, 5, 6].map (·, (0 : Byte))) y).isSome = true) ∧
    reportedCode (encode .ecbd) ((core9 2).setLen 16) = .none ∧ (core9 2).inBuf.read 0 = none := by
  refine ⟨by decide +kernel, by decide, by decide, by decide, rfl, rfl⟩

/-- KsxIsIdempotent: both clauses. -/
theorem witness_ksx_twice : (∃ t, exec (.ksx .e1) ready = .next t) ∧ ready.scheduleOk ∧ ready.kv.get .e2 = true :=
  ⟨⟨_, rfl⟩, ready_inv.schedule, rfl⟩

/-- DerivationTimeUnobservable. -/
theorem witness_derivation_time : isData .ecbd = true ∧ isData (.dese .e1) = true ∧ ready.scheduleOk ∧ oneBlock.scheduleOk :=
  ⟨rfl, rfl, ready_inv.schedule, oneBlock_scheduleOk⟩

/-- DataCommandsAreStateless: two states that differ in `KV`, `RK`, `ERR`, `OUT` and agree on what the rule names. -/
theorem witness_two_histories :
    isData (.desd .e2) = true ∧ oneBlock.mkReg = ((expand .e2 oneBlock).setErr .sizeError).mkReg ∧
    oneBlock.len = ((expand .e2 oneBlock).setErr .sizeError).len ∧
    oneBlock.bufMax = ((expand .e2 oneBlock).setErr .sizeError).bufMax ∧ oneBlock.scheduleOk ∧
    ((expand .e2 oneBlock).setErr .sizeError).scheduleOk ∧
    ∀ a, a < oneBlock.len.toNat → oneBlock.inBuf.read a = ((expand .e2 oneBlock).setErr .sizeError).inBuf.read a := by
  refine ⟨rfl, by simp [expand], by simp [expand], by simp [expand], oneBlock_scheduleOk, ?_, fun _ _ => by simp [expand]⟩
  intro e h
  cases e
  · exact absurd h (by decide)
  · rfl
  · exact absurd h (by decide)

/-- BlockOrderUnobservable: two blocks, visited backwards. -/
theorem witness_block_order : Memory.wf [] = true ∧ [1, 0].Perm (List.range 2) ∧
    ∃ out, ecbLoop .dec ready.rk ready.inBuf 2 0 [] = .ok out :=
  ⟨rfl, by decide, _, rfl⟩

/-- PermSelectsBits, RotationFormula, BytesAndBits, RotationTotals, SubkeyBitsAreKeyBits, InitialPermutationInverse: the
ends of the ranges of positions. -/
theorem witness_positions : pTable.length = 32 ∧ 31 < pTable.length ∧ 7 < 8 ∧ (1 ≤ 1 ∧ 1 ≤ 8) ∧ (1 ≤ 8 ∧ 8 ≤ 8) ∧
    (1 ≤ 28 ∧ 28 ≤ 28) ∧ 16 ≤ 16 ∧ (1 ≤ 48 ∧ 48 ≤ 48) ∧ (1 ≤ 64 ∧ 64 ≤ 64) := by decide

/-- KeyParityIgnored, DegenerateKeys: the keys of V3, equal in their effective bits. -/
theorem witness_parity : (∀ j : Fin 8, (blk 0x0001000000010000)[j] = 0 ∨ (blk 0x0001000000010000)[j] = 1) ∧
    sameEffective (blk 0x133457799BBCDFF1) (blk 0x123456789ABCDEF0) ∧
    sameEffective (blk 0x123456789ABCDEF0) (blk 0x133557799BBDDFF1) := by
  refine ⟨by decide, ?_, ?_⟩ <;> unfold sameEffective <;> decide

/-- CornerKeys: the keys of V4, one for each clause and one with different halves. -/
theorem witness_weak_keys : cd (be (blk 0x0101010101010101)) 0 = (0, 0) ∧
    cd (be (blk 0xFEFEFEFEFEFEFEFE)) 0 = (BitVec.allOnes 28, BitVec.allOnes 28) ∧
    cd (be (blk 0x1F1F1F1F0E0E0E0E)) 0 = (0, BitVec.allOnes 28) := by decide +kernel

/-- DecryptInvertsEncrypt: sixteen equal subkeys (V4). -/
theorem witness_equal_subkeys : ∀ i j : Fin 16, (ks (blk 0x1F1F1F1F0E0E0E0E))[i] = (ks (blk 0x1F1F1F1F0E0E0E0E))[j] := by
  decide +kernel

/-- EcbKeepsLength, BlocksAreIndependent: two buffers of two blocks that differ in block 1 only, and one whose two
blocks are equal (V12). -/
theorem witness_two_buffers : (bytes [0, 0x1111111111111111]).length = 8 * 2 ∧ (bytes [0, 0x1111111111111110]).length = 8 * 2 ∧
    1 < 2 ∧ (List.drop (8 * 1) (bytes [0, 0x1111111111111111])).take 8 = (blk 0x1111111111111111).toList ∧
    (List.drop (8 * 1) (bytes [0, 0])).take 8 = (List.drop (8 * 0) (bytes [0, 0])).take 8 ∧
    bytes [0, 0x1111111111111111] ≠ bytes [0, 0x1111111111111110] := by decide +kernel

theorem witness_two_buffers_agree : ∀ j, j < 8 * 1 ∨ 8 * 1 + 8 ≤ j →
    (bytes [0, 0x1111111111111111])[j]? = (bytes [0, 0x1111111111111110])[j]? := by
  intro j hj
  rcases hj with h | h
  · have h8 : ∀ j : Fin 8, (bytes [0, 0x1111111111111111])[j.val]? = (bytes [0, 0x1111111111111110])[j.val]? := by
      decide +kernel
    exact h8 ⟨j, h⟩
  · rw [List.getElem?_eq_none (by rw [witness_two_buffers.1]; omega),
      List.getElem?_eq_none (by rw [witness_two_buffers.2.1]; omega)]

end Sys2Proof.Tests
end

section
/-! The notation of 00_scope.md section 4 (rules R9 to R11), bit by bit. -/

namespace Sys2Proof.Machine

/-! ## Permutation by table (rule R9) -/

theorem desBit_perm {w n : Nat} (t : List Nat) (v : BitVec w) (hn : t.length = n) (j : Nat) (h : j < t.length) :
    desBit (perm n t v) (j + 1) = desBit v t[j] := by
  subst hn
  have hpos : t.length - (j + 1) = t.length - 1 - j := by omega
  have hlt : t.length - 1 - j < t.length := by omega
  rw [desBit, perm, hpos, BitVec.getLsbD_ofNat, permNat_testBit t v j h]
  simp [hlt]

/-- Settles O41: digit `j` of the number `perm` computes is the bit that entry `j` of the table names. -/
theorem permSelectsBits : Obligations.PermSelectsBits := by
  intro w n t v hn j h
  exact desBit_perm t v hn j h

/-! ## Rotation (rule R10), for every amount below the width -/

theorem rotl28_eq_shifts (x : BitVec 28) (s : Nat) (hs : s < 28) : rotl28 x s = (x <<< s) ||| (x >>> (28 - s)) := by
  rw [rotl28, BitVec.rotateLeft_def, Nat.mod_eq_of_lt hs]

theorem desBit_rotl28 (x : BitVec 28) (s k : Nat) (hs : s < 28) (hk : 1 ≤ k) (hk28 : k ≤ 28) :
    desBit (rotl28 x s) k = desBit x ((k - 1 + s) % 28 + 1) := by
  rw [desBit, rotl28, BitVec.getLsbD_rotateLeft_of_le hs, desBit]
  by_cases hwrap : 28 - k < s
  · -- The bit re-enters on the right: the source position is past 28 and wraps.
    have hsrc : 28 - ((k - 1 + s) % 28 + 1) = 28 - s + (28 - k) := by omega
    simp [hwrap, hsrc]
  · have hsrc : 28 - ((k - 1 + s) % 28 + 1) = 28 - k - s := by omega
    have hlt : 28 - k < 28 := by omega
    simp [hwrap, hsrc, hlt]

/-- Settles O42: both forms hold for every amount below 28, so for the amounts 1 and 2 of rule R10. -/
theorem rotationFormula : Obligations.RotationFormula := by
  intro x s hs
  have hs28 : s < 28 := by omega
  exact ⟨rotl28_eq_shifts x s hs28, fun k hk hk28 => desBit_rotl28 x s k hs28 hk hk28⟩

/-! ## Bytes and byte sequences (rule R11) -/

/-- Eight binary digits of the number of a byte sequence are one byte, the first byte leftmost. -/
theorem beNat_testBit (l : List Byte) (j i : Nat) (hj : j < l.length) (hi : i < 8) :
    (l.foldl (fun acc (x : Byte) => 256 * acc + x.toNat) 0).testBit (8 * (l.length - 1 - j) + i) = l[j].getLsbD i := by
  induction l using List.reverseRecOn with
  | nil => simp at hj
  | append_singleton l b ih =>
    rw [beNat_append, Nat.testBit_two_pow_mul_add (i := 8) _ b.isLt]
    rw [List.length_append, List.length_singleton] at hj ⊢
    rcases Nat.lt_succ_iff_lt_or_eq.mp hj with hlt | rfl
    · have hhigh : ¬ 8 * (l.length + 1 - 1 - j) + i < 8 := by omega
      have hshift : 8 * (l.length + 1 - 1 - j) + i - 8 = 8 * (l.length - 1 - j) + i := by omega
      rw [if_neg hhigh, hshift, ih hlt, List.getElem_append_left hlt]
    · have hlow : 8 * (l.length + 1 - 1 - l.length) + i = i := by omega
      rw [hlow, if_pos hi, List.getElem_concat_length rfl, BitVec.getLsbD]

/-- A bit of `BE` in LSB-0 numbering: byte `j` stands `n - 1 - j` bytes above the least significant end. -/
theorem getLsbD_be {n : Nat} (b : Vector Byte n) (j i : Nat) (hj : j < n) (hi : i < 8) :
    (be b).getLsbD (8 * (n - 1 - j) + i) = b[j].getLsbD i := by
  have h := beNat_testBit b.toList j i (by simpa using hj) hi
  simp only [Vector.length_toList, Vector.getElem_toList] at h
  rw [BitVec.getLsbD, be_toNat, h]

/-- A bit of a byte of `BYTES_n` in LSB-0 numbering. -/
theorem getLsbD_bytesOf {n : Nat} (v : BitVec (8 * n)) (j i : Nat) (hj : j < n) (hi : i < 8) :
    (bytesOf n v)[j].getLsbD i = v.getLsbD (8 * (n - 1 - j) + i) := by
  have hpos : 8 * n + 1 - (8 * j + 1) - 8 + i = 8 * (n - 1 - j) + i := by omega
  rw [bytesOf, Vector.getElem_ofFn, getLsbD_desSlice v _ 8 i hi, hpos]

theorem desBit_be {n : Nat} (b : Vector Byte n) (j k : Nat) (hj : j < n) (hk : 1 ≤ k) (hk8 : k ≤ 8) :
    desBit (be b) (8 * j + k) = desBit b[j] k := by
  have hpos : 8 * n - (8 * j + k) = 8 * (n - 1 - j) + (8 - k) := by omega
  rw [desBit, hpos, getLsbD_be b j (8 - k) hj (by omega), desBit]

@[simp] theorem bytesOf_be {n : Nat} (b : Vector Byte n) : bytesOf n (be b) = b := by
  apply Vector.ext
  intro j hj
  apply BitVec.eq_of_getLsbD_eq
  intro i hi
  rw [getLsbD_bytesOf (be b) j i hj hi, getLsbD_be b j i hj hi]

@[simp] theorem be_bytesOf {n : Nat} (v : BitVec (8 * n)) : be (bytesOf n v) = v := by
  apply BitVec.eq_of_getLsbD_eq
  intro p hp
  have hj : n - 1 - p / 8 < n := by omega
  have hi : p % 8 < 8 := by omega
  have hpos : p = 8 * (n - 1 - (n - 1 - p / 8)) + p % 8 := by omega
  rw [hpos, getLsbD_be (bytesOf n v) _ _ hj hi, getLsbD_bytesOf v _ _ hj hi]

/-- Settles O43: the bits of `BE`, and its two inverse laws, all from where byte `j` stands in the number. -/
theorem bytesAndBits : Obligations.BytesAndBits :=
  ⟨fun _ b j k hj hk hk8 => desBit_be b j k hj hk hk8, fun _ b => bytesOf_be b, fun _ v => be_bytesOf v⟩

end Sys2Proof.Machine
end

section
/-! The state along a run (10_state.md): what a step performs, what a command leaves of the host's side and of the engines,
the invariant of rules R20, R23 and R42, what the host sees, and the statelessness law (rule R35). -/

namespace Sys2Proof.Machine

/-! ## Taking the next transaction (rules R28, R50, R51, R60) -/

theorem step_of_pending {s : State} {op : HostOp} {ts : List HostOp} (h : s.pending = op :: ts) :
    step s = hostStep op (s.setPending ts) := by
  rw [step, takeNext, h]

/-- An issued transaction is the oldest one, and the queue behind it is as it was before. -/
theorem step_issueNext (op : HostOp) (s : State) : step (issueNext op s) = hostStep op s :=
  step_of_pending rfl

theorem hostStep_cmd_of_decode {w : Byte} {i : Instr} (h : decode w = .ok i) (s : State) :
    hostStep (.cmd w) s = exec i s := by
  rw [hostStep, hostCmd, h]

theorem decode_encode (i : Instr) : decode (encode i) = .ok i := by
  cases i with
  | ksx e => cases e <;> rfl
  | dese e => cases e <;> rfl
  | desd e => cases e <;> rfl
  | ecbd => rfl
  | ecbe => rfl

/-- Settles O5: the oldest transaction is `H_CMD(w)`, and `H_CMD` of a word that decodes is the command. -/
theorem stepRunsCommand : Obligations.StepRunsCommand := by
  intro s w ts i hp hd
  rw [step_of_pending hp]
  exact hostStep_cmd_of_decode hd _

/-- Settles O7: the issued word is the oldest transaction, and the word of a command decodes to it. -/
theorem issuedCommandRuns : Obligations.IssuedCommandRuns := by
  intro i s
  have hw : BitVec.ofNat 8 ((encode i).toNat % 2 ^ 8) = encode i := by
    rw [Nat.mod_eq_of_lt (encode i).isLt, BitVec.ofNat_toNat, BitVec.setWidth_eq]
  rw [State.withFetchWord, hw, step_issueNext]
  exact hostStep_cmd_of_decode (decode_encode i) s

/-! ## The key and its three slices (rules R20, R21) -/

theorem getElem_subKey (mk : Vector Byte 24) (e : Engine) (j : Fin 8) :
    (subKey mk e)[j] = mk[(subKeyBase e).val + j.val] := by
  simp [subKey]

/-- Settles O44: sub-key `e` starts at byte 0, 8 or 16 of `MK`. -/
theorem subKeysAreSlices : Obligations.SubKeysAreSlices := by
  intro mk j
  refine ⟨?_, getElem_subKey mk .e2 j, getElem_subKey mk .e3 j⟩
  rw [getElem_subKey]
  simp [subKeyBase]

/-! ## The status register (rule R26) -/

theorem errBits_le_four (x : ErrCode) : (errBits x).toNat ≤ 4 := by
  cases x <;> decide

theorem extractLsb'_statusReg (s : State) : (statusReg s).extractLsb' 0 4 = errBits s.err := by
  rw [statusReg]
  exact BitVec.extractLsb'_append_eq_right

theorem getLsbD_statusReg (s : State) :
    (statusReg s).getLsbD 4 = s.kv.get .e1 ∧ (statusReg s).getLsbD 5 = s.kv.get .e2 ∧
      (statusReg s).getLsbD 6 = s.kv.get .e3 ∧ (statusReg s).getLsbD 7 = false := by
  simp only [statusReg, BitVec.getLsbD_append]
  simp [PerEngine.get]

/-! ## The state after reset (rules R33, R180) -/

@[simp] theorem kv_get_resetOf (c : Config) (e : Engine) : (State.resetOf c).kv.get e = false := by
  cases e <;> rfl

@[simp] theorem statusReg_resetOf (c : Config) : statusReg (State.resetOf c) = 0x00 := by
  simp [statusReg, State.resetOf, errBits]

/-- Settles O8: the fields of `resetOf`, with nothing listed in the two spaces. -/
theorem stateAfterReset : Obligations.StateAfterReset :=
  ⟨rfl, kv_get_resetOf _, rfl, statusReg_resetOf _, rfl, Memory.read_nil, Memory.read_nil⟩

/-- Settles O23: the fields of the concatenation, from the right. -/
theorem statusLayout : Obligations.StatusLayout := by
  refine ⟨rfl, fun _ => rfl, statusReg_resetOf _, fun s => ?_⟩
  obtain ⟨h1, h2, h3, h7⟩ := getLsbD_statusReg s
  exact ⟨extractLsb'_statusReg s, errBits_le_four s.err, h1, h2, h3, h7, rfl⟩

theorem resetOf_inv (c : Config) : (State.resetOf c).Inv where
  memory := reset_memoryOk c
  key := rfl
  schedule e hv := by simp at hv

/-- Settles O10: no byte is listed, the key is the configured one, no engine is valid. -/
theorem resetMeetsInvariant : Obligations.ResetMeetsInvariant :=
  ⟨resetOf_inv _, resetOf_inv⟩

/-! ## What a command leaves of the host's side (rules R20, R27, R49) -/

theorem setErr_sameHostSide (s : State) (x : ErrCode) : s.sameHostSide (s.setErr x) :=
  ⟨rfl, rfl, rfl, rfl, rfl, rfl⟩

/-- Writing `OUT` and then ending the command. -/
theorem setOut_setErr_sameHostSide (s : State) (m : Memory) (x : ErrCode) :
    s.sameHostSide ((s.setOut m).setErr x) :=
  ⟨rfl, rfl, rfl, rfl, rfl, rfl⟩

theorem exec_sameHostSide {i : Instr} {s t : State} (h : exec i s = .next t) : s.sameHostSide t := by
  rcases exec_next_cases h with ⟨-, x, -, rfl⟩ | ⟨e, -, rfl⟩ | ⟨dir, e, b, -, -, -, rfl⟩ | ⟨dir, out, -, -, -, rfl⟩
  · exact setErr_sameHostSide s x
  · exact sameHostSide_trans (expand_sameHostSide e s) (setErr_sameHostSide _ _)
  · exact sameHostSide_trans (derive_sameHostSide e s) (setOut_setErr_sameHostSide _ _ _)
  · exact sameHostSide_trans (deriveAll_sameHostSide s) (setOut_setErr_sameHostSide _ _ _)

/-- Settles O14, by the four things a command can do. -/
theorem commandsKeepHostSide : Obligations.CommandsKeepHostSide :=
  fun _ _ _ h => exec_sameHostSide h

theorem exec_len {i : Instr} {s t : State} (h : exec i s = .next t) : t.len = s.len := by
  obtain ⟨-, -, hlen, -⟩ := exec_sameHostSide h
  exact hlen

/-- Settles O20: the two transactions of `LEN` by their meaning, the commands by their frame. -/
theorem lengthReadsBack : Obligations.LengthReadsBack :=
  ⟨rfl, fun _ => rfl, rfl, fun n s => ⟨s.setLen n, rfl, rfl, rfl⟩, fun _ _ _ h => exec_len h⟩

theorem hostCmd_sameHostSide {w : Byte} {s t : State} (h : hostCmd w s = .next t) : s.sameHostSide t := by
  rcases hostCmd_next_cases h with ⟨i, -, he⟩ | ⟨-, rfl⟩
  · exact exec_sameHostSide he
  · exact setErr_sameHostSide s _

/-! ## What a command does to an engine (rules R22 to R24) -/

/-- Engine `e` is as in `s`, or valid with the schedule of its sub-key. -/
def State.engineKeptOrExpanded (s t : State) (e : Engine) : Prop :=
  (t.kv.get e = s.kv.get e ∧ t.rk.get e = s.rk.get e) ∨ (t.kv.get e = true ∧ t.rk.get e = ks (subKey s.mkReg e))

/-- A valid engine stays valid. -/
theorem State.engineKeptOrExpanded.valid {s t : State} {e : Engine} (h : s.engineKeptOrExpanded t e)
    (hv : s.kv.get e = true) : t.kv.get e = true := by
  rcases h with ⟨hkv, -⟩ | ⟨hkv, -⟩
  · rw [hkv, hv]
  · exact hkv

theorem expand_engine (g : Engine) (s : State) (e : Engine) : s.engineKeptOrExpanded (expand g s) e := by
  by_cases he : e = g
  · subst he
    exact .inr (by simp [expand])
  · exact .inl (by simp [expand, he])

theorem derive_engine (g : Engine) (s : State) (e : Engine) : s.engineKeptOrExpanded (derive g s) e := by
  rcases derive_cases g s with ⟨-, h⟩ | ⟨-, h⟩ <;> rw [h]
  · exact .inl ⟨rfl, rfl⟩
  · exact expand_engine g s e

theorem deriveAll_engine (s : State) (e : Engine) : s.engineKeptOrExpanded (deriveAll s) e := by
  obtain ⟨hkv, hrk⟩ := deriveAll_get e s
  by_cases hv : s.kv.get e = true
  · rw [if_pos hv] at hrk
    exact .inl ⟨hkv.trans hv.symm, hrk⟩
  · rw [if_neg hv] at hrk
    exact .inr ⟨hkv, hrk⟩

theorem exec_engine {i : Instr} {s t : State} (h : exec i s = .next t) (e : Engine) :
    s.engineKeptOrExpanded t e := by
  rcases exec_next_cases h with ⟨-, x, -, rfl⟩ | ⟨g, -, rfl⟩ | ⟨dir, g, b, -, -, -, rfl⟩ | ⟨dir, out, -, -, -, rfl⟩
  · exact .inl ⟨rfl, rfl⟩
  · exact expand_engine g s e
  · exact derive_engine g s e
  · exact deriveAll_engine s e

theorem hostCmd_engine {w : Byte} {s t : State} (h : hostCmd w s = .next t) (e : Engine) :
    s.engineKeptOrExpanded t e := by
  rcases hostCmd_next_cases h with ⟨i, -, he⟩ | ⟨-, rfl⟩
  · exact exec_engine he e
  · exact .inl ⟨rfl, rfl⟩

theorem hostStep_keepsValid {op : HostOp} {s t : State} {e : Engine} (hop : op ≠ .reset)
    (h : hostStep op s = .next t) (hv : s.kv.get e = true) : t.kv.get e = true := by
  rcases hostStep_next_cases h with ⟨rfl, -⟩ | ⟨a, b, -, -, rfl⟩ | ⟨n, -, rfl⟩ | ⟨w, -, hc⟩ | ⟨v, -, rfl⟩
  · exact absurd rfl hop
  · exact hv
  · exact hv
  · exact (hostCmd_engine hc e).valid hv
  · exact hv

/-- Settles O16: of the transactions only the commands and the reset touch `KV`, and a command only sets it. -/
theorem validBitsClearedOnlyByReset : Obligations.ValidBitsClearedOnlyByReset := by
  intro s t e hv hhead h
  rcases step_next_cases h with ⟨-, rfl⟩ | ⟨op, ts, hp, hop⟩
  · exact hv
  · have hne : op ≠ .reset := by simpa [hp] using hhead
    exact hostStep_keepsValid hne hop hv

/-! ## What a command does to `OUT` (rule R42) -/

/-- What every block write inside the buffer keeps, a command keeps. -/
theorem exec_outBuf_keeps {i : Instr} {s t : State} (P : Memory → Prop)
    (hw : ∀ q p b, P q → p + 8 ≤ s.bufMax → P (q.writeBlock p b)) (h : exec i s = .next t) (hp : P s.outBuf) :
    P t.outBuf := by
  rcases exec_next_cases h with ⟨-, x, -, rfl⟩ | ⟨e, -, rfl⟩ | ⟨dir, e, b, -, hc, -, rfl⟩ | ⟨dir, out, -, hc, hl, rfl⟩
  · exact hp
  · exact hp
  · obtain ⟨hle, h8⟩ := checkLen_oneBlock_eq_none.mp hc
    exact hw _ 0 _ hp (by omega)
  · obtain ⟨hle, h8⟩ := checkLen_wholeBlocks_eq_none.mp hc
    have hblocks : 8 * blockCount s ≤ s.bufMax := by
      rw [blockCount]
      omega
    exact ecbLoop_keeps P (fun q p b hq _ hpb => hw q p b hq (by omega)) hl hp

/-! ## The invariant (rules R20, R23, R42) -/

theorem exec_memoryOk {i : Instr} {s t : State} (hm : s.memoryOk) (h : exec i s = .next t) : t.memoryOk := by
  obtain ⟨hiw, how, hib, hob⟩ := hm
  obtain ⟨hcfg, -, -, hin, -, -⟩ := exec_sameHostSide h
  have hmax : t.bufMax = s.bufMax := by rw [State.bufMax, hcfg, State.bufMax]
  obtain ⟨how', hob'⟩ := exec_outBuf_keeps (fun m => m.wf = true ∧ m.below s.bufMax = true)
    (fun q p b hq hpb => ⟨Memory.wf_writeBlock hq.1 p b, Memory.below_writeBlock hq.2 hpb b⟩) h ⟨how, hob⟩
  rw [State.memoryOk, hin, hmax]
  exact ⟨hiw, how', hib, hob'⟩

theorem exec_scheduleOk {i : Instr} {s t : State} (hs : s.scheduleOk) (h : exec i s = .next t) : t.scheduleOk := by
  intro e hv
  obtain ⟨-, hmk, -⟩ := exec_sameHostSide h
  rw [hmk]
  rcases exec_engine h e with ⟨hkv, hrk⟩ | ⟨-, hrk⟩
  · rw [hrk]
    exact hs e (hkv ▸ hv)
  · exact hrk

theorem exec_inv {i : Instr} {s t : State} (hs : s.Inv) (h : exec i s = .next t) : t.Inv where
  memory := exec_memoryOk hs.memory h
  key := by
    obtain ⟨hcfg, hmk, -⟩ := exec_sameHostSide h
    rw [State.keyOk, hmk, hcfg]
    exact hs.key
  schedule := exec_scheduleOk hs.schedule h

theorem hostCmd_inv {w : Byte} {s t : State} (hs : s.Inv) (h : hostCmd w s = .next t) : t.Inv := by
  rcases hostCmd_next_cases h with ⟨i, -, he⟩ | ⟨-, rfl⟩
  · exact exec_inv hs he
  · exact ⟨hs.memory, hs.key, hs.schedule⟩

theorem hReset_inv (s : State) : s.hReset.Inv :=
  ⟨(resetOf_inv s.cfg).memory, (resetOf_inv s.cfg).key, (resetOf_inv s.cfg).schedule⟩

/-- `H_WR_IN` inside the buffer. -/
theorem setIn_write_inv {s : State} (hs : s.Inv) {a : Nat} (ha : a < s.bufMax) (b : Byte) :
    (s.setIn (s.inBuf.write a b)).Inv where
  memory := by
    obtain ⟨hiw, how, hib, hob⟩ := hs.memory
    exact ⟨Memory.wf_write hiw a b, how, Memory.below_write hib ha b, hob⟩
  key := hs.key
  schedule := hs.schedule

theorem hostStep_inv {op : HostOp} {s t : State} (hs : s.Inv) (h : hostStep op s = .next t) : t.Inv := by
  rcases hostStep_next_cases h with ⟨-, rfl⟩ | ⟨a, b, -, ha, rfl⟩ | ⟨n, -, rfl⟩ | ⟨w, -, hc⟩ | ⟨v, -, rfl⟩
  · exact hReset_inv s
  · exact setIn_write_inv hs ha b
  · exact ⟨hs.memory, hs.key, hs.schedule⟩
  · exact hostCmd_inv hs hc
  · exact ⟨hs.memory, hs.key, hs.schedule⟩

/-- The queue is no part of the invariant. -/
theorem setPending_inv {s : State} (hs : s.Inv) (ts : List HostOp) : (s.setPending ts).Inv :=
  ⟨hs.memory, hs.key, hs.schedule⟩

theorem step_inv {s t : State} (hs : s.Inv) (h : step s = .next t) : t.Inv := by
  rcases step_next_cases h with ⟨-, rfl⟩ | ⟨op, ts, -, hop⟩
  · exact hs
  · exact hostStep_inv (setPending_inv hs ts) hop

/-- Settles O11, transaction by transaction: only `H_WR_IN` and the commands write a space, and only the commands and the
reset write the engines. -/
theorem stepKeepsInvariant : Obligations.StepKeepsInvariant :=
  fun _ _ hs h => step_inv hs h

/-- What every step of a machine keeps, its runs keep. -/
theorem run_keeps {M : Host.Core} (P : M.State → Prop) (hstep : ∀ s t, P s → M.step s = .next t → P t) {n : Nat}
    {s t : M.State} (hs : P s) (h : M.run n s = .next t) : P t := by
  induction n generalizing s with
  | zero =>
    cases h
    exact hs
  | succ n ih =>
    rw [Host.Core.run] at h
    split at h
    next u hu => exact ih (hstep s u hs hu) h
    all_goals cases h

/-- Settles O12: the invariant holds at reset and every step keeps it, so the run ends in it. -/
theorem reachableSchedulesAreKs : Obligations.ReachableSchedulesAreKs := by
  intro c ts n t h e hv i
  have ht : t.Inv := run_keeps (M := Sys2Proof.core) State.Inv (fun _ _ => step_inv) (setPending_inv (resetOf_inv c) ts) h
  rw [ht.schedule e hv]

/-! ## The key register and the configuration (rules R7, R20) -/

/-- The reset, too, keeps the key: it puts back the configured one. -/
theorem hostStep_keepsKey {op : HostOp} {s t : State} (hk : s.keyOk) (h : hostStep op s = .next t) :
    t.mkReg = s.mkReg ∧ t.cfg = s.cfg := by
  rcases hostStep_next_cases h with ⟨-, rfl⟩ | ⟨a, b, -, -, rfl⟩ | ⟨n, -, rfl⟩ | ⟨w, -, hc⟩ | ⟨v, -, rfl⟩
  · exact ⟨hk.symm, rfl⟩
  · exact ⟨rfl, rfl⟩
  · exact ⟨rfl, rfl⟩
  · obtain ⟨hcfg, hmk, -⟩ := hostCmd_sameHostSide hc
    exact ⟨hmk, hcfg⟩
  · exact ⟨rfl, rfl⟩

/-- Settles O13: no transaction changes the two, the reset by the premise on the key. -/
theorem stepKeepsMasterKey : Obligations.StepKeepsMasterKey := by
  intro s t hk h
  rcases step_next_cases h with ⟨-, rfl⟩ | ⟨op, ts, -, hop⟩
  · exact ⟨rfl, rfl⟩
  · exact hostStep_keepsKey (s := s.setPending ts) hk hop

/-! ## What the host changes and sees without a command (rules R20, R22, R25, R42, R50) -/

/-- Settles O17: what is left are a write of `IN`, a write of `LEN` and a returned value. -/
theorem hostAccessesKeepCoreState : Obligations.HostAccessesKeepCoreState := by
  intro op s t hreset hcmd h
  rcases hostStep_next_cases h with ⟨hop, -⟩ | ⟨a, b, -, -, rfl⟩ | ⟨n, -, rfl⟩ | ⟨w, hop, -⟩ | ⟨v, -, rfl⟩
  · exact absurd hop hreset
  · exact ⟨rfl, rfl, rfl, rfl, rfl, rfl⟩
  · exact ⟨rfl, rfl, rfl, rfl, rfl, rfl⟩
  · exact absurd hop (hcmd w)
  · exact ⟨rfl, rfl, rfl, rfl, rfl, rfl⟩

/-- Two states that agree on all a transaction other than a command can show the host: everything but `MK`, `RK`, the
queue and, in the configuration, the key. -/
structure State.sameView (s u : State) : Prop where
  bufMax : s.bufMax = u.bufMax
  kv : s.kv = u.kv
  err : s.err = u.err
  len : s.len = u.len
  inBuf : s.inBuf = u.inBuf
  outBuf : s.outBuf = u.outBuf
  reads : s.reads = u.reads

section
variable {s u : State} (h : s.sameView u)
include h

theorem returns_sameReads (v : HostValue) : sameReads (.next (s.returns v)) (.next (u.returns v)) :=
  congrArg (· ++ [v]) h.reads

theorem hostWrIn_sameReads (a : Nat) (b : Byte) : sameReads (hostWrIn a b s) (hostWrIn a b u) := by
  rw [hostWrIn, hostWrIn, h.bufMax]
  split
  · exact h.reads
  · rfl

theorem hostRdIn_sameReads (a : Nat) : sameReads (hostRdIn a s) (hostRdIn a u) := by
  rw [hostRdIn, hostRdIn, h.bufMax, h.inBuf]
  split
  · cases u.inBuf.read a with
    | some b => exact returns_sameReads h _
    | none => rfl
  · rfl

theorem hostRdOut_sameReads (a : Nat) : sameReads (hostRdOut a s) (hostRdOut a u) := by
  rw [hostRdOut, hostRdOut, h.bufMax, h.outBuf]
  split
  · cases u.outBuf.read a with
    | some b => exact returns_sameReads h _
    | none => rfl
  · rfl

theorem hostStep_sameReads {op : HostOp} (hop : ∀ w, op ≠ .cmd w) : sameReads (hostStep op s) (hostStep op u) := by
  cases op with
  | reset => exact h.reads
  | wrIn a b => exact hostWrIn_sameReads h a b
  | rdIn a => exact hostRdIn_sameReads h a
  | wrLen n => exact h.reads
  | rdLen =>
    rw [hostStep, hostStep, h.len]
    exact returns_sameReads h _
  | cmd w => exact absurd rfl (hop w)
  | rdStatus =>
    have hst : statusReg s = statusReg u := by rw [statusReg, statusReg, h.kv, h.err]
    rw [hostStep, hostStep, hst]
    exact returns_sameReads h _
  | rdOut a => exact hostRdOut_sameReads h a

end

/-- Settles O18: `MK` and `RK` are no part of what a transaction other than a command shows. -/
theorem hostNeverSeesKeys : Obligations.HostNeverSeesKeys :=
  fun _ s k r hop =>
    hostStep_sameReads (s := s) (u := { s with mkReg := k, rk := r }) ⟨rfl, rfl, rfl, rfl, rfl, rfl, rfl⟩ hop

/-! ## The statelessness law (rule R35) -/

/-- The two spaces read the same below `n`. -/
def Memory.agreeBelow (n : Nat) (m m' : Memory) : Prop :=
  ∀ a, a < n → m.read a = m'.read a

theorem Memory.agreeBelow_zero (m m' : Memory) : Memory.agreeBelow 0 m m' :=
  fun a ha => absurd ha (Nat.not_lt_zero a)

theorem Memory.readBytes_congr {m m' : Memory} {a n : Nat} (h : ∀ j, j < n → m.read (a + j) = m'.read (a + j)) :
    m.readBytes a n = m'.readBytes a n := by
  induction n with
  | zero => rfl
  | succ n ih =>
    rw [Memory.readBytes, Memory.readBytes, ih fun j hj => h j (by omega), h n (by omega)]

theorem Memory.agreeBelow.readBlock {n : Nat} {m m' : Memory} (h : Memory.agreeBelow n m m') {a : Nat}
    (ha : a + 8 ≤ n) : m.readBlock a = m'.readBlock a :=
  Memory.readBytes_congr fun j hj => h (a + j) (by omega)

theorem Memory.agreeBelow.writeBlock {o : Nat} {m m' : Memory} (h : Memory.agreeBelow o m m') (b : Block) :
    Memory.agreeBelow (o + 8) (m.writeBlock o b) (m'.writeBlock o b) := by
  intro a ha
  by_cases hlt : a < o
  · rw [Memory.read_writeBlock_out m o a b (.inl hlt), Memory.read_writeBlock_out m' o a b (.inl hlt)]
    exact h a hlt
  · obtain ⟨j, rfl⟩ : ∃ j, a = o + j := ⟨a - o, by omega⟩
    have hj : j < 8 := by omega
    rw [Memory.read_writeBlock_in m o j b hj, Memory.read_writeBlock_in m' o j b hj]

/-- Two results of the ECB loop: spaces that agree below `n`, or a stop at the same address. -/
def sameLoopResult (n : Nat) : Except Nat Memory → Except Nat Memory → Prop
  | .ok out, .ok out' => Memory.agreeBelow n out out'
  | .error a, .error a' => a = a'
  | _, _ => False

/-- The loop overwrites its whole range, so of the old `OUT` only what lies below the range is left. -/
theorem ecbLoop_sameLoopResult (dir : Dir) (rk : PerEngine Schedule) {inBuf inBuf' out out' : Memory} {m o : Nat}
    (hin : Memory.agreeBelow (o + 8 * m) inBuf inBuf') (hout : Memory.agreeBelow o out out') :
    sameLoopResult (o + 8 * m) (ecbLoop dir rk inBuf m o out) (ecbLoop dir rk inBuf' m o out') := by
  induction m generalizing o out out' with
  | zero => exact hout
  | succ m ih =>
    have hend : o + 8 * (m + 1) = o + 8 + 8 * m := by omega
    rw [ecbLoop, ecbLoop, hin.readBlock (a := o) (by omega)]
    cases inBuf'.readBlock o with
    | error a => rfl
    | ok b =>
      rw [hend] at hin ⊢
      exact ih hin (hout.writeBlock (tdes dir rk b))

/-- Where the invariant of rule R23 holds, what `Derive(e)` leaves is the schedule of the sub-key, valid engine or not. -/
theorem derivedKeys_eq_ks {s : State} (hs : s.scheduleOk) (e : Engine) : derivedKeys s e = ks (subKey s.mkReg e) := by
  rw [derivedKeys]
  split
  · exact hs e ‹_›
  · rfl

theorem derive_rk_get_eq_ks {s : State} (hs : s.scheduleOk) (e : Engine) :
    (derive e s).rk.get e = ks (subKey s.mkReg e) :=
  (derive_get_same e s).2.trans (derivedKeys_eq_ks hs e)

theorem deriveAll_rk_get_eq_ks {s : State} (hs : s.scheduleOk) (e : Engine) :
    (deriveAll s).rk.get e = ks (subKey s.mkReg e) :=
  (deriveAll_get e s).2.trans (derivedKeys_eq_ks hs e)

theorem raise_sameResult (n : Nat) {x : ErrCode} (hx : x ≠ .none) (s u : State) :
    sameResult n (raise x s) (raise x u) :=
  ⟨rfl, fun hn => absurd hn hx⟩

theorem complete_sameResult {n : Nat} {s u : State} (h : Memory.agreeBelow n s.outBuf u.outBuf) :
    sameResult n (complete s) (complete u) :=
  ⟨rfl, fun _ => h⟩

/-- What rule R35 lets the effect of a data command depend on, with the invariant of rule R23 in both states. -/
structure State.sameDataInputs (s u : State) : Prop where
  key : s.mkReg = u.mkReg
  len : s.len = u.len
  bufMax : s.bufMax = u.bufMax
  schedule_left : s.scheduleOk
  schedule_right : u.scheduleOk
  input : Memory.agreeBelow s.len.toNat s.inBuf u.inBuf

section
variable {s u : State} (h : s.sameDataInputs u)
include h

theorem State.sameDataInputs.checkLen_eq (r : LenRule) : checkLen r s = checkLen r u := by
  simp only [checkLen, h.bufMax, h.len]

theorem State.sameDataInputs.derive_rk_eq (e : Engine) : (derive e s).rk.get e = (derive e u).rk.get e := by
  rw [derive_rk_get_eq_ks h.schedule_left, derive_rk_get_eq_ks h.schedule_right, h.key]

theorem State.sameDataInputs.deriveAll_rk_eq : (deriveAll s).rk = (deriveAll u).rk := by
  refine PerEngine.ext_get fun e => ?_
  rw [deriveAll_rk_get_eq_ks h.schedule_left, deriveAll_rk_get_eq_ks h.schedule_right, h.key]

theorem execSingle_sameResult (dir : Dir) (e : Engine) :
    sameResult s.len.toNat (execSingle dir e s) (execSingle dir e u) := by
  rw [execSingle, execSingle, ← h.checkLen_eq]
  cases hc : checkLen .oneBlock s with
  | some x => exact raise_sameResult _ (fun hx => checkLen_ne_code_none _ s (hx ▸ hc)) s u
  | none =>
    obtain ⟨-, h8⟩ := checkLen_oneBlock_eq_none.mp hc
    have hin : s.inBuf.readBlock 0 = u.inBuf.readBlock 0 := h.input.readBlock (by omega)
    simp only [derive_inBuf, derive_outBuf, hin, h.derive_rk_eq e]
    cases u.inBuf.readBlock 0 with
    | error a => rfl
    | ok b =>
      refine complete_sameResult ?_
      rw [h8]
      exact (Memory.agreeBelow_zero s.outBuf u.outBuf).writeBlock _

theorem execEcb_sameResult (dir : Dir) : sameResult s.len.toNat (execEcb dir s) (execEcb dir u) := by
  rw [execEcb, execEcb, ← h.checkLen_eq]
  cases hc : checkLen .wholeBlocks s with
  | some x => exact raise_sameResult _ (fun hx => checkLen_ne_code_none _ s (hx ▸ hc)) s u
  | none =>
    obtain ⟨-, h8⟩ := checkLen_wholeBlocks_eq_none.mp hc
    have hcount : blockCount u = blockCount s := by rw [blockCount, blockCount, h.len]
    have hend : s.len.toNat = 0 + 8 * blockCount s := by
      rw [blockCount]
      omega
    have hloop := ecbLoop_sameLoopResult dir (deriveAll u).rk (hend ▸ h.input)
      (Memory.agreeBelow_zero s.outBuf u.outBuf)
    simp only [deriveAll_inBuf, deriveAll_outBuf, blockCount_deriveAll, h.deriveAll_rk_eq, hcount]
    rw [hend]
    generalize ecbLoop dir (deriveAll u).rk s.inBuf (blockCount s) 0 s.outBuf = res at hloop ⊢
    generalize ecbLoop dir (deriveAll u).rk u.inBuf (blockCount s) 0 u.outBuf = res' at hloop ⊢
    match res, res', hloop with
    | .ok out, .ok out', hout => exact complete_sameResult hout
    | .error a, .error a', ha => exact congrArg Fault.unwrittenIn ha

theorem exec_sameResult {i : Instr} (hi : isData i = true) : sameResult s.len.toNat (exec i s) (exec i u) := by
  cases i with
  | ksx e => cases hi
  | dese e => exact execSingle_sameResult h .enc e
  | desd e => exact execSingle_sameResult h .dec e
  | ecbd => exact execEcb_sameResult h .dec
  | ecbe => exact execEcb_sameResult h .enc

end

/-- Settles O38: the checks see `LEN` and `BUF_MAX`, the subkeys are those of the key by the invariant of rule R23, and
the blocks come from `IN[0 .. LEN-1]` and overwrite all of `OUT[0 .. LEN-1]`. -/
theorem dataCommandsAreStateless : Obligations.DataCommandsAreStateless :=
  fun _ _ _ hi hkey hlen hmax hs hu hin => exec_sameResult ⟨hkey, hlen, hmax, hs, hu, hin⟩ hi

end Sys2Proof.Machine
end

section
/-! The two byte spaces (20_memory.md): what a step does with the host's queue, the three byte transactions, what the
commands leave of `IN` and `OUT`, and the stop on an unwritten input byte. -/

namespace Sys2Proof.Machine

/-! ## The host's order (rules R50, R51, R186) -/

theorem step_of_pending_nil {s : State} (h : s.pending = []) : step s = .next s := by
  rw [step, takeNext, h]

/-- Settles O6, one clause for each shape of the queue. -/
theorem stepFollowsHostOrder : Obligations.StepFollowsHostOrder :=
  ⟨fun _ _ _ h => step_of_pending h, fun _ h => step_of_pending_nil h⟩

/-! ## The byte transactions (rules R50, R55) -/

section
variable {s : State} {a : Nat}

theorem hostStep_wrIn_of_lt (h : a < s.bufMax) (b : Byte) :
    hostStep (.wrIn a b) s = .next (s.setIn (s.inBuf.write a b)) := by
  rw [hostStep, hostWrIn, if_pos h]

theorem hostStep_rdIn_of_some (h : a < s.bufMax) {b : Byte} (hb : s.inBuf.read a = some b) :
    hostStep (.rdIn a) s = .next (s.returns (.byte b)) := by
  rw [hostStep, hostRdIn, if_pos h, hb]

theorem hostStep_rdIn_of_none (h : a < s.bufMax) (hn : s.inBuf.read a = none) :
    hostStep (.rdIn a) s = .fault (.unwrittenIn a) := by
  rw [hostStep, hostRdIn, if_pos h, hn]

theorem hostStep_rdOut_of_some (h : a < s.bufMax) {b : Byte} (hb : s.outBuf.read a = some b) :
    hostStep (.rdOut a) s = .next (s.returns (.byte b)) := by
  rw [hostStep, hostRdOut, if_pos h, hb]

theorem hostStep_rdOut_of_none (h : a < s.bufMax) (hn : s.outBuf.read a = none) :
    hostStep (.rdOut a) s = .fault (.unwrittenOut a) := by
  rw [hostStep, hostRdOut, if_pos h, hn]

end

/-- Settles O19: the write is one write of `IN`, so the read that follows finds the byte. -/
theorem hostWritesOneByte : Obligations.HostWritesOneByte := by
  intro a b s ha
  have hread : (s.inBuf.write a b).read a = some b := Memory.read_write_same s.inBuf a b
  exact ⟨s.setIn (s.inBuf.write a b), hostStep_wrIn_of_lt ha b, hread,
    fun c hc => Memory.read_write_other s.inBuf a c b hc, rfl,
    hostStep_rdIn_of_some (s := s.setIn (s.inBuf.write a b)) ha hread⟩

/-- Settles O21, by the two cases of each read. -/
theorem hostReadsOneByte : Obligations.HostReadsOneByte :=
  fun _ _ ha => ⟨fun _ hb => hostStep_rdOut_of_some ha hb, hostStep_rdOut_of_none ha,
    fun _ hb => hostStep_rdIn_of_some ha hb, hostStep_rdIn_of_none ha⟩

/-- Settles O22: each of the three transactions asks for `a < BUF_MAX` first. -/
theorem noByteBeyondCapacity : Obligations.NoByteBeyondCapacity := by
  intro a b s ha
  have hn : ¬ a < s.bufMax := Nat.not_lt.mpr ha
  exact ⟨if_neg hn, if_neg hn, if_neg hn⟩

/-! ## Which bytes of `OUT` a command writes (rules R45, R49) -/

theorem Memory.isSome_read_writeBlock (m : Memory) {a c : Nat} (b : Block) (hac : a ≤ c) (hc : c < a + 8) :
    ((m.writeBlock a b).read c).isSome = true := by
  obtain ⟨j, rfl⟩ := Nat.exists_eq_add_of_le hac
  rw [Memory.read_writeBlock_in m a j b (by omega)]
  rfl

theorem ecbLoop_read_outside {dir : Dir} {rk : PerEngine Schedule} {inBuf out out' : Memory} {m o c : Nat}
    (h : ecbLoop dir rk inBuf m o out = .ok out') (hc : c < o ∨ o + 8 * m ≤ c) : out'.read c = out.read c :=
  ecbLoop_keeps (fun q => q.read c = out.read c)
    (fun q p b hq _ _ => (Memory.read_writeBlock_out q p c b (by omega)).trans hq) h rfl

/-- The loop writes every byte of its range: the first block's stay through the later iterations. -/
theorem ecbLoop_isSome_inside {dir : Dir} {rk : PerEngine Schedule} {inBuf out out' : Memory} {m o c : Nat}
    (h : ecbLoop dir rk inBuf m o out = .ok out') (ho : o ≤ c) (hc : c < o + 8 * m) :
    (out'.read c).isSome = true := by
  induction m generalizing o out with
  | zero => omega
  | succ m ih =>
    rw [ecbLoop] at h
    split at h
    · cases h
    · by_cases hlt : c < o + 8
      · rw [ecbLoop_read_outside h (.inl hlt)]
        exact Memory.isSome_read_writeBlock out _ ho hlt
      · exact ih h (by omega) (by omega)

/-- The blocks of a whole number of blocks are all of the buffer (rule R67). -/
theorem eight_mul_blockCount {s : State} (h : s.len.toNat % 8 = 0) : 8 * blockCount s = s.len.toNat := by
  rw [blockCount]
  omega

/-- Settles O15, by the four things a command can do. -/
theorem commandMemoryFrame : Obligations.CommandMemoryFrame := by
  intro i s t h
  obtain ⟨-, -, -, hin, -, -⟩ := exec_sameHostSide h
  refine ⟨hin, ?_⟩
  rcases exec_next_cases h with ⟨-, x, hx, rfl⟩ | ⟨e, rfl, rfl⟩ | ⟨dir, e, b, hi, hc, -, rfl⟩ |
    ⟨dir, out, hi, hc, hl, rfl⟩
  · exact ⟨fun _ _ => rfl, fun _ => rfl, fun hn => absurd hn hx⟩
  · exact ⟨fun _ _ => rfl, fun _ => rfl, fun _ hd => by cases hd⟩
  · obtain ⟨-, h8⟩ := checkLen_oneBlock_eq_none.mp hc
    have hdata : isData i = true := by rcases hi with rfl | rfl <;> rfl
    exact ⟨fun a ha => Memory.read_writeBlock_out _ 0 a _ (by omega), fun hno => by simp [hdata] at hno,
      fun _ _ a ha => Memory.isSome_read_writeBlock _ _ (Nat.zero_le a) (by omega)⟩
  · obtain ⟨-, h8⟩ := checkLen_wholeBlocks_eq_none.mp hc
    have hend := eight_mul_blockCount h8
    have hdata : isData i = true := by rcases hi with rfl | rfl <;> rfl
    exact ⟨fun a ha => ecbLoop_read_outside hl (by omega), fun hno => by simp [hdata] at hno,
      fun _ _ a ha => ecbLoop_isSome_inside hl (Nat.zero_le a) (by omega)⟩

/-! ## The stop on an unwritten input byte (rules R53, R55) -/

/-- `a` is the lowest address that holds no value. -/
structure Memory.firstUnwritten (m : Memory) (a : Nat) : Prop where
  unwritten : m.read a = none
  written : ∀ y, y < a → (m.read y).isSome = true

theorem Memory.firstUnwritten.not_isSome {m : Memory} {a : Nat} (h : m.firstUnwritten a) :
    (m.read a).isSome ≠ true := by
  simp [h.unwritten]

theorem Memory.firstUnwritten.unique {m : Memory} {a x : Nat} (ha : m.firstUnwritten a) (hx : m.firstUnwritten x) :
    x = a := by
  rcases Nat.lt_trichotomy x a with hlt | heq | hlt
  · exact absurd (ha.written x hlt) hx.not_isSome
  · exact heq
  · exact absurd (hx.written a hlt) ha.not_isSome

theorem Memory.isSome_of_readBlock {m : Memory} {a c : Nat} {b : Block} (h : m.readBlock a = .ok b) (hac : a ≤ c)
    (hc : c < a + 8) : (m.read c).isSome = true := by
  obtain ⟨j, rfl⟩ := Nat.exists_eq_add_of_le hac
  simp [Memory.readBlock_eq_ok.mp h j (by omega)]

/-- A loop that ends has read its whole input range. -/
theorem ecbLoop_ok_isSome_input {dir : Dir} {rk : PerEngine Schedule} {inBuf out out' : Memory} {m o c : Nat}
    (h : ecbLoop dir rk inBuf m o out = .ok out') (ho : o ≤ c) (hc : c < o + 8 * m) :
    (inBuf.read c).isSome = true := by
  induction m generalizing o out with
  | zero => omega
  | succ m ih =>
    rw [ecbLoop] at h
    split at h
    next => cases h
    next b hb =>
      by_cases hlt : c < o + 8
      · exact Memory.isSome_of_readBlock hb ho hlt
      · exact ih h (by omega) (by omega)

section
variable {s : State} {a : Nat} (ha : s.inBuf.firstUnwritten a)
include ha

theorem execSingle_unwrittenIn (dir : Dir) (e : Engine) (hc : checkLen .oneBlock s = none) (hlt : a < s.len.toNat) :
    execSingle dir e s = .fault (.unwrittenIn a) := by
  obtain ⟨-, h8⟩ := checkLen_oneBlock_eq_none.mp hc
  rcases execSingle_cases dir e s with ⟨x, hx, -⟩ | ⟨-, x, hr, he⟩ | ⟨-, b, hr, -⟩
  · rw [hc] at hx
    cases hx
  · obtain ⟨-, -, hx, hbelow⟩ := Memory.readBytes_eq_error hr
    rw [he, ha.unique ⟨hx, fun y => hbelow y (Nat.zero_le y)⟩]
  · exact absurd (Memory.isSome_of_readBlock hr (Nat.zero_le a) (by omega)) ha.not_isSome

theorem execEcb_unwrittenIn (dir : Dir) (hc : checkLen .wholeBlocks s = none) (hlt : a < s.len.toNat) :
    execEcb dir s = .fault (.unwrittenIn a) := by
  obtain ⟨-, h8⟩ := checkLen_wholeBlocks_eq_none.mp hc
  have hend := eight_mul_blockCount h8
  rcases execEcb_cases dir s with ⟨x, hx, -⟩ | ⟨-, x, hl, he⟩ | ⟨-, out, hl, -⟩
  · rw [hc] at hx
    cases hx
  · obtain ⟨-, -, hx, hbelow⟩ := ecbLoop_eq_error hl
    rw [he, ha.unique ⟨hx, fun y => hbelow y (Nat.zero_le y)⟩]
  · exact absurd (ecbLoop_ok_isSome_input hl (Nat.zero_le a) (by omega)) ha.not_isSome

end

/-! What the checks of rule R156 report for a data command is what its length check answers. -/

theorem reportedCode_oneBlock {w : Byte} {e : Engine} (hw : decode w = .ok (.dese e) ∨ decode w = .ok (.desd e))
    (s : State) : reportedCode w s = (checkLen .oneBlock s).getD .none := by
  have hcode : reportedCode w s = if s.bufMax < s.len.toNat then .capacityError
      else if s.len.toNat ≠ 8 then .contractViolation else .none := by
    rcases hw with hw | hw <;> rw [reportedCode, hw]
  rw [hcode, checkLen]
  split
  · rfl
  · by_cases h8 : s.len.toNat = 8 <;> simp [h8]

theorem reportedCode_wholeBlocks {w : Byte} (hw : decode w = .ok .ecbd ∨ decode w = .ok .ecbe) (s : State) :
    reportedCode w s = (checkLen .wholeBlocks s).getD .none := by
  have hcode : reportedCode w s = if s.bufMax < s.len.toNat then .capacityError
      else if s.len.toNat % 8 ≠ 0 then .sizeError else .none := by
    rcases hw with hw | hw <;> rw [reportedCode, hw]
  rw [hcode, checkLen]
  split
  · rfl
  · by_cases h8 : s.len.toNat % 8 = 0 <;> simp [h8]

theorem checkLen_getD_eq_none {r : LenRule} {s : State} (h : (checkLen r s).getD .none = .none) :
    checkLen r s = none := by
  cases hc : checkLen r s with
  | none => rfl
  | some x =>
    rw [hc] at h
    exact absurd (h ▸ hc) (checkLen_ne_code_none r s)

/-- Settles O34: the checks pass, so the command reads its input range, and it stops at the lowest address without a
value. -/
theorem unwrittenInputStops : Obligations.UnwrittenInputStops := by
  intro i s a hi hcode hlt hnone hbelow
  have ha : s.inBuf.firstUnwritten a := ⟨hnone, hbelow⟩
  have hd := decode_encode i
  cases i with
  | ksx e => cases hi
  | dese e =>
    rw [reportedCode_oneBlock (.inl hd)] at hcode
    exact execSingle_unwrittenIn ha .enc e (checkLen_getD_eq_none hcode) hlt
  | desd e =>
    rw [reportedCode_oneBlock (.inr hd)] at hcode
    exact execSingle_unwrittenIn ha .dec e (checkLen_getD_eq_none hcode) hlt
  | ecbd =>
    rw [reportedCode_wholeBlocks (.inl hd)] at hcode
    exact execEcb_unwrittenIn ha .dec (checkLen_getD_eq_none hcode) hlt
  | ecbe =>
    rw [reportedCode_wholeBlocks (.inr hd)] at hcode
    exact execEcb_unwrittenIn ha .enc (checkLen_getD_eq_none hcode) hlt

end Sys2Proof.Machine
end

section
/-! The encoding (30_encoding.md): the fields of a word that decodes are those of its command, so `decode` and `encode` are
inverse to each other, and a word that is no command's is illegal. -/

namespace Sys2Proof.Machine

/-! ## The fields of a word (rules R60, R62) -/

theorem pack_unpack (w : Byte) : pack (unpack w) = w := by
  have hop : w.extractLsb' 4 4 ++ w.extractLsb' 2 2 = w.extractLsb' 2 6 :=
    BitVec.extractLsb'_append_extractLsb'_eq_extractLsb' rfl
  have hw : w.extractLsb' 2 6 ++ w.extractLsb' 0 2 = w.extractLsb' 0 8 :=
    BitVec.extractLsb'_append_extractLsb'_eq_extractLsb' rfl
  rw [pack, unpack, hop, hw, BitVec.extractLsb'_eq_self]

/-- Only the field of an engine names it. -/
theorem eq_engineField_of_engineOf {e : BitVec 2} {g : Engine} (h : engineOf e = some g) : e = engineField g := by
  revert e
  cases g <;> decide

/-- The fields of a word whose operation, numbered `n`, takes an engine: those of the command it decodes to. -/
theorem eq_instrFields_of_withEngine {op n : BitVec 4} {e : BitVec 2} {k : Engine → Instr} {i : Instr}
    (hop : op.toNat = n.toNat) (hk : ∀ g, instrFields (k g) = ⟨n, 0, engineField g⟩) (h : withEngine e k = .ok i) :
    ⟨op, 0, e⟩ = instrFields i := by
  rw [withEngine] at h
  cases hg : engineOf e with
  | none =>
    rw [hg] at h
    cases h
  | some g =>
    rw [hg] at h
    cases h
    rw [hk, BitVec.eq_of_toNat_eq hop, eq_engineField_of_engineOf hg]

/-- The same of an operation that takes no engine. -/
theorem eq_instrFields_of_withoutEngine {op n : BitVec 4} {e : BitVec 2} {j i : Instr}
    (hop : op.toNat = n.toNat) (hj : instrFields j = ⟨n, 0, 0⟩) (h : withoutEngine e j = .ok i) :
    ⟨op, 0, e⟩ = instrFields i := by
  rw [withoutEngine] at h
  split at h
  next he =>
    cases h
    rw [hj, BitVec.eq_of_toNat_eq hop, he]
  next => cases h

/-! ## Decoding and encoding (rules R61, R64) -/

/-- By the branches of the decoder: `z = 00`, and under each assigned `op` the field `e` is that of an engine, or `00` where
the operation takes none. -/
theorem unpack_of_decode {w : Byte} {i : Instr} (h : decode w = .ok i) : unpack w = instrFields i := by
  rw [decode] at h
  generalize unpack w = f at h ⊢
  obtain ⟨op, z, e⟩ := f
  by_cases hz : z = 0
  · subst hz
    simp only [ne_eq, not_true_eq_false, if_false] at h
    split at h
    next hop => exact eq_instrFields_of_withEngine (n := 1) hop (fun _ => rfl) h
    next hop => exact eq_instrFields_of_withEngine (n := 2) hop (fun _ => rfl) h
    next hop => exact eq_instrFields_of_withEngine (n := 3) hop (fun _ => rfl) h
    next hop => exact eq_instrFields_of_withoutEngine (n := 4) hop rfl h
    next hop => exact eq_instrFields_of_withoutEngine (n := 5) hop rfl h
    next => cases h
  · rw [if_pos hz] at h
    cases h

/-- The decoder answers a command on its own word and on no other. -/
theorem decode_eq_ok_iff {w : Byte} {i : Instr} : decode w = .ok i ↔ encode i = w := by
  constructor
  · intro h
    rw [encode, ← unpack_of_decode h, pack_unpack]
  · rintro rfl
    exact decode_encode i

/-- Settles O3: the word is packed from its fields, and these are the command's. -/
theorem encodeOfDecode : Obligations.EncodeOfDecode :=
  fun _ _ h => decode_eq_ok_iff.mp h

/-- Settles O2, by the command and its engine. -/
theorem decodeOfEncode : Obligations.DecodeOfEncode :=
  decode_encode

/-! ## The table of assigned words and the illegal ones (rules R61, R64, R151) -/

/-- The table of rule R61, written out, pairs every command with its word. -/
theorem mem_assignedWords_iff {w : Byte} {i : Instr} : (w, i) ∈ assignedWords ↔ encode i = w := by
  constructor
  · have hall : ∀ p ∈ assignedWords, encode p.2 = p.1 := by decide
    exact hall (w, i)
  · rintro rfl
    cases i with
    | ksx e => cases e <;> decide
    | dese e => cases e <;> decide
    | desd e => cases e <;> decide
    | ecbd => decide
    | ecbe => decide

theorem mem_map_fst_assignedWords_of_decode {w : Byte} {i : Instr} (h : decode w = .ok i) :
    w ∈ assignedWords.map Prod.fst :=
  List.mem_map_of_mem (mem_assignedWords_iff.mpr (decode_eq_ok_iff.mp h))

/-- Settles O1: the words of the table are the commands' own words, and only these decode. -/
theorem elevenWordsDecode : Obligations.ElevenWordsDecode :=
  ⟨fun _ hp => decode_eq_ok_iff.mpr (mem_assignedWords_iff.mp hp),
    fun _ ⟨_, h⟩ => mem_map_fst_assignedWords_of_decode h⟩

theorem hostStep_cmd_of_decode_error {w : Byte} {x : Illegal} (h : decode w = .error x) (s : State) :
    hostStep (.cmd w) s = .next (s.setErr .illegalCommand) := by
  rw [hostStep, hostCmd, h, raise]

/-- Settles O4: a word outside the table is rejected by the decoder, so `H_CMD` raises the exception before it reads
anything of the state. -/
theorem illegalCommandTaken : Obligations.IllegalCommandTaken := by
  intro w s hw
  cases hd : decode w with
  | ok i => exact absurd (mem_map_fst_assignedWords_of_decode hd) hw
  | error x => exact hostStep_cmd_of_decode_error hd s

end Sys2Proof.Machine
end

section
/-! The key schedule (40_key_schedule.md): the closed form of the rotations (rule R88), the key bit behind each subkey
bit (rule R89) and what follows from it (rules R87, R90), the keys with constant halves (rule R94), `KSX` (rules R91,
R92), and why the time of a derivation cannot be seen (rule R93). -/

namespace Sys2Proof

@[simp] theorem PerEngine.set_get_self {α : Type} (p : PerEngine α) (e : Engine) : p.set e (p.get e) = p := by
  cases e <;> rfl

end Sys2Proof

namespace Sys2Proof.Machine

/-! ## Bits in DES numbering (rule R8) -/

theorem eq_of_desBit_eq {w : Nat} {v u : BitVec w} (h : ∀ k, 1 ≤ k → k ≤ w → desBit v k = desBit u k) : v = u := by
  apply BitVec.eq_of_getLsbD_eq
  intro i hi
  have hbit := h (w - i) (by omega) (by omega)
  rwa [desBit, desBit, show w - (w - i) = i by omega] at hbit

theorem desBit_not {w : Nat} (v : BitVec w) (k : Nat) (hk : 1 ≤ k) (hkw : k ≤ w) : desBit (~~~v) k = !desBit v k := by
  have hlt : w - k < w := by omega
  simp [desBit, hlt]

theorem desBit_allOnes {w k : Nat} (hk : 1 ≤ k) (hkw : k ≤ w) : desBit (BitVec.allOnes w) k = true := by
  have hlt : w - k < w := by omega
  simp only [desBit, BitVec.getLsbD_allOnes, hlt, decide_true]

/-- A bit of two words side by side: the left word comes first. -/
theorem desBit_append {m n : Nat} (a : BitVec m) (b : BitVec n) (k : Nat) (hk : k ≤ m + n) :
    desBit (a ++ b) k = if k ≤ m then desBit a k else desBit b (k - m) := by
  rw [desBit, BitVec.getLsbD_append]
  split
  · rw [if_neg (by omega), desBit, show m + n - k = n - (k - m) by omega]
  · rw [if_pos (by omega), desBit, show m + n - k - n = m - k by omega]

/-! ## Rotations add up (rules R10, R88) -/

theorem rotl28_mod (x : BitVec 28) (s : Nat) : rotl28 x (s % 28) = rotl28 x s :=
  BitVec.rotateLeft_mod_eq_rotateLeft

/-- `desBit_rotl28` for every amount, since only its remainder by 28 matters. -/
theorem desBit_rotl28_mod (x : BitVec 28) (s k : Nat) (hk : 1 ≤ k) (hk28 : k ≤ 28) :
    desBit (rotl28 x s) k = desBit x ((k - 1 + s) % 28 + 1) := by
  rw [← rotl28_mod, desBit_rotl28 x _ k (Nat.mod_lt s (by decide)) hk hk28, Nat.add_mod_mod]

theorem rotl28_rotl28 (x : BitVec 28) (s t : Nat) : rotl28 (rotl28 x s) t = rotl28 x (s + t) := by
  refine eq_of_desBit_eq fun k hk hk28 => ?_
  rw [desBit_rotl28_mod _ t k hk hk28, desBit_rotl28_mod x s _ (by omega) (by omega),
    desBit_rotl28_mod x _ k hk hk28]
  congr 2
  omega

theorem rotl28_zero (x : BitVec 28) : rotl28 x 0 = x := by
  refine eq_of_desBit_eq fun k hk hk28 => ?_
  rw [desBit_rotl28_mod x 0 k hk hk28]
  congr 1
  omega

/-- A full turn. -/
theorem rotl28_width (x : BitVec 28) : rotl28 x 28 = x := by
  rw [← rotl28_mod, Nat.mod_self, rotl28_zero]

/-- A half of equal bits is its own rotation. -/
theorem constantHalf.rotl28_eq {c : BitVec 28} (h : constantHalf c) (s : Nat) : rotl28 c s = c := by
  refine eq_of_desBit_eq fun k hk hk28 => ?_
  rw [desBit_rotl28_mod c s k hk hk28]
  rcases h with rfl | rfl
  · simp [desBit]
  · rw [desBit_allOnes (by omega) (by omega), desBit_allOnes hk hk28]

/-- One round of rule R84. -/
theorem cd_succ (k : BitVec 64) (i : Nat) :
    cd k (i + 1) = (rotl28 (cd k i).1 (rot (i + 1)), rotl28 (cd k i).2 (rot (i + 1))) := rfl

/-- The closed form of rule R88: the halves of round `i` are those of round 0, turned by `TOT(i)`. -/
theorem cd_eq_rotl28 (k : BitVec 64) (i : Nat) :
    cd k i = (rotl28 (cd k 0).1 (rotTotal i), rotl28 (cd k 0).2 (rotTotal i)) := by
  induction i with
  | zero => rw [rotTotal, rotl28_zero, rotl28_zero]
  | succ i ih =>
    rw [cd_succ, ih]
    simp only [rotl28_rotl28, rotTotal]

/-- Settles O45: the two tables by evaluation, the bits from the closed form, and `TOT(16) = 28` is a full turn. -/
theorem rotationTotals : Obligations.RotationTotals := by
  refine ⟨by decide, by decide, fun k i p _ hp hp28 => ?_, fun k => ?_⟩
  · rw [cd_eq_rotl28 k i]
    exact ⟨desBit_rotl28_mod _ _ p hp hp28, desBit_rotl28_mod _ _ p hp hp28⟩
  · have htot : rotTotal 16 = 28 := by decide
    rw [cd_eq_rotl28 k 16, htot, rotl28_width, rotl28_width]

/-! ## The key bit behind each subkey bit (rule R89) -/

/-- A permutation by table, its entry looked up by the bit's position counted from 1. -/
theorem desBit_perm_getD {w n : Nat} (t : List Nat) (v : BitVec w) (hn : t.length = n) (j : Nat) (hj : 1 ≤ j)
    (hjn : j ≤ n) : desBit (perm n t v) j = desBit v (t.getD (j - 1) 0) := by
  have hlt : j - 1 < t.length := by omega
  have hbit := desBit_perm t v hn (j - 1) hlt
  rwa [Nat.sub_add_cancel hj, ← List.getD_eq_getElem t 0 hlt] at hbit

/-- `C_0` is the first half of the permuted key, `D_0` the second. -/
theorem desBit_cd_zero (k : BitVec 64) (p : Nat) (hp : 1 ≤ p) (hp28 : p ≤ 28) :
    desBit (cd k 0).1 p = desBit k (pc1Table.getD (p - 1) 0) ∧
      desBit (cd k 0).2 p = desBit k (pc1Table.getD (p - 1 + 28) 0) := by
  constructor
  · rw [cd, desBit_desSlice _ 1 28 p (by omega) (by omega) hp hp28, pc1,
      desBit_perm_getD (n := 56) pc1Table k rfl _ (by omega) (by omega), show 1 + p - 1 - 1 = p - 1 by omega]
  · rw [cd, desBit_desSlice _ 29 28 p (by omega) (by omega) hp hp28, pc1,
      desBit_perm_getD (n := 56) pc1Table k rfl _ (by omega) (by omega), show 29 + p - 1 - 1 = p - 1 + 28 by omega]

/-- Bit `p` of `C_i ‖ D_i` is the key bit `pos56(i, p)`. -/
theorem desBit_cd_append (k : BitVec 64) (i p : Nat) (hp : 1 ≤ p) (hp56 : p ≤ 56) :
    desBit ((cd k i).1 ++ (cd k i).2) p = desBit k (pos56 i p) := by
  rw [desBit_append _ _ p hp56, pos56, cd_eq_rotl28 k i]
  split
  · obtain ⟨hfst, -⟩ := desBit_cd_zero k ((p - 1 + rotTotal i) % 28 + 1) (by omega) (by omega)
    rw [desBit_rotl28_mod _ _ p hp (by omega), hfst, Nat.add_sub_cancel]
  · obtain ⟨-, hsnd⟩ := desBit_cd_zero k ((p - 29 + rotTotal i) % 28 + 1) (by omega) (by omega)
    rw [desBit_rotl28_mod _ _ (p - 28) (by omega) (by omega), show p - 28 - 1 = p - 29 by omega, hsnd,
      Nat.add_sub_cancel]

theorem getD_mem {t : List Nat} {n : Nat} (h : n < t.length) : t.getD n 0 ∈ t := by
  rw [List.getD_eq_getElem t 0 h]
  exact List.getElem_mem h

/-- `PC2` names positions of a 56-bit value. -/
theorem pc2Table_bounds {j : Nat} (hj : 1 ≤ j) (hj48 : j ≤ 48) :
    1 ≤ pc2Table.getD (j - 1) 0 ∧ pc2Table.getD (j - 1) 0 ≤ 56 := by
  have hall : ∀ p ∈ pc2Table, 1 ≤ p ∧ p ≤ 56 := by decide
  have hlt : j - 1 < pc2Table.length := Nat.lt_of_lt_of_eq (by omega : j - 1 < 48) rfl
  exact hall _ (getD_mem hlt)

theorem getElem_ks (key : Block) (i : Fin 16) : (ks key)[i] = ksSubkey (be key) (i.val + 1) := by
  simp [ks]

theorem desBit_ks (key : Block) (i : Fin 16) (j : Nat) (hj : 1 ≤ j) (hj48 : j ≤ 48) :
    desBit (ks key)[i] j = desBit (be key) (keyBitOf (i.val + 1) j) := by
  obtain ⟨hp, hp56⟩ := pc2Table_bounds hj hj48
  rw [getElem_ks, ksSubkey, pc2, desBit_perm_getD (n := 48) pc2Table _ rfl j hj hj48,
    desBit_cd_append _ _ _ hp hp56, keyBitOf]

/-- Settles O46: through `PC2`, the closed form of the rotations, and `PC1`. -/
theorem subkeyBitsAreKeyBits : Obligations.SubkeyBitsAreKeyBits :=
  desBit_ks

/-! ## The parity bits and the complement (rules R87, R90) -/

/-- The schedule uses no key bit outside `PC1`. -/
theorem keyBitOf_mem_pc1Table (i : Nat) {j : Nat} (hj : 1 ≤ j) (hj48 : j ≤ 48) : keyBitOf i j ∈ pc1Table := by
  have hlen : pc1Table.length = 56 := rfl
  obtain ⟨hp, hp56⟩ := pc2Table_bounds hj hj48
  rw [keyBitOf, pos56]
  split <;> exact getD_mem (by omega)

/-- `PC1` names positions of a 64-bit key, and none of the last bit of a byte. -/
theorem pc1Table_bounds {p : Nat} (h : p ∈ pc1Table) : 1 ≤ p ∧ p ≤ 64 ∧ p % 8 ≠ 0 := by
  have hall : ∀ p ∈ pc1Table, 1 ≤ p ∧ p ≤ 64 ∧ p % 8 ≠ 0 := by decide
  exact hall p h

/-- Keys that agree in the positions of `PC1` have one schedule. -/
theorem ks_congr {k l : Block} (h : ∀ p ∈ pc1Table, desBit (be k) p = desBit (be l) p) : ks k = ks l := by
  refine Vector.ext fun i hi => eq_of_desBit_eq fun j hj hj48 => ?_
  have hk := desBit_ks k ⟨i, hi⟩ j hj hj48
  have hl := desBit_ks l ⟨i, hi⟩ j hj hj48
  exact hk.trans ((h _ (keyBitOf_mem_pc1Table _ hj hj48)).trans hl.symm)

/-- Keys with the same effective bits agree in every position but the last of each byte. -/
theorem sameEffective.desBit_be_eq {k l : Block} (h : sameEffective k l) {p : Nat} (hp64 : p ≤ 64)
    (hp8 : p % 8 ≠ 0) : desBit (be k) p = desBit (be l) p := by
  have hj : p / 8 < 8 := by omega
  have hr : 1 ≤ p % 8 := by omega
  have hr8 : p % 8 ≤ 8 := by omega
  have hpos : p = 8 * (p / 8) + p % 8 := by omega
  have hbyte : (k[p / 8] >>> 1).getLsbD (7 - p % 8) = (l[p / 8] >>> 1).getLsbD (7 - p % 8) :=
    congrArg (BitVec.getLsbD · _) (h ⟨p / 8, hj⟩)
  rw [BitVec.getLsbD_ushiftRight, BitVec.getLsbD_ushiftRight, show 1 + (7 - p % 8) = 8 - p % 8 by omega] at hbyte
  rw [hpos, desBit_be k _ _ hj hr hr8, desBit_be l _ _ hj hr hr8]
  exact hbyte

/-- Rule R87 for any two keys with the same effective bits. -/
theorem ks_eq_of_sameEffective {k l : Block} (h : sameEffective k l) : ks k = ks l := by
  refine ks_congr fun p hp => ?_
  obtain ⟨-, hp64, hp8⟩ := pc1Table_bounds hp
  exact h.desBit_be_eq hp64 hp8

theorem sameEffective_zipWith_xor (key m : Block) (hm : ∀ j : Fin 8, m[j] = 0 ∨ m[j] = 1) :
    sameEffective (Vector.zipWith (· ^^^ ·) key m) key := by
  intro j
  have hzero : m[j] >>> 1 = 0#8 := by
    rcases hm j with h | h <;> rw [h] <;> rfl
  simp only [Fin.getElem_fin] at hzero ⊢
  rw [Vector.getElem_zipWith, BitVec.ushiftRight_xor_distrib, hzero, BitVec.xor_zero]

/-- Settles O47: a mask of parity bits leaves the effective bits, and `PC1` takes no others. -/
theorem keyParityIgnored : Obligations.KeyParityIgnored :=
  fun key m hm => ks_eq_of_sameEffective (sameEffective_zipWith_xor key m hm)

theorem be_complementBytes (b : Block) : be (complementBytes b) = ~~~(be b) := by
  refine eq_of_desBit_eq fun p hp hp64 => ?_
  have hj : (p - 1) / 8 < 8 := by omega
  have hr : 1 ≤ (p - 1) % 8 + 1 := by omega
  have hr8 : (p - 1) % 8 + 1 ≤ 8 := by omega
  have hpos : p = 8 * ((p - 1) / 8) + ((p - 1) % 8 + 1) := by omega
  rw [desBit_not _ p hp hp64, hpos, desBit_be _ _ _ hj hr hr8, desBit_be _ _ _ hj hr hr8, complementBytes,
    Vector.getElem_map, desBit_not _ _ hr hr8]

/-- Settles O48: each subkey bit is a key bit, and every key bit is complemented. -/
theorem keyScheduleComplement : Obligations.KeyScheduleComplement := by
  intro key i
  refine eq_of_desBit_eq fun j hj hj48 => ?_
  obtain ⟨hp, hp64, -⟩ := pc1Table_bounds (keyBitOf_mem_pc1Table (i.val + 1) hj hj48)
  rw [desBit_ks _ i j hj hj48, be_complementBytes, desBit_not _ _ hp hp64, desBit_not _ j hj hj48,
    desBit_ks _ i j hj hj48]

/-! ## Keys with constant halves (rule R94) -/

theorem cd_of_constantHalves {k : BitVec 64} (hc : constantHalf (cd k 0).1) (hd : constantHalf (cd k 0).2) (i : Nat) :
    cd k i = cd k 0 := by
  rw [cd_eq_rotl28 k i, hc.rotl28_eq, hd.rotl28_eq]

theorem getElem_ks_of_constantHalves {key : Block} (hc : constantHalf (cd (be key) 0).1)
    (hd : constantHalf (cd (be key) 0).2) (i : Fin 16) :
    (ks key)[i] = pc2 ((cd (be key) 0).1 ++ (cd (be key) 0).2) := by
  rw [getElem_ks, ksSubkey, cd_of_constantHalves hc hd]

/-- With sixteen equal subkeys the two orders of the rounds are the same (rule R112). -/
theorem des_dec_eq_enc_of_equal {rk : Schedule} (h : ∀ i j : Fin 16, rk[i] = rk[j]) (b : Block) :
    des .dec rk b = des .enc rk b := by
  have hrk : rk.toList = List.replicate 16 rk[0] := by
    refine List.eq_replicate_iff.mpr ⟨by simp, fun x hx => ?_⟩
    obtain ⟨i, hi, rfl⟩ := List.mem_iff_getElem.mp hx
    rw [Vector.getElem_toList]
    exact h ⟨i, by simpa using hi⟩ 0
  have horder : subkeyOrder .dec rk = subkeyOrder .enc rk := by
    rw [subkeyOrder, subkeyOrder, hrk, List.reverse_replicate]
  rw [des, des, desBits, desBits, horder]

/-- Settles O49: a constant half is its own rotation, so every subkey is `PC2` of `C_0 ‖ D_0`. -/
theorem cornerKeys : Obligations.CornerKeys := by
  intro key
  refine ⟨fun h0 i => ?_, fun h1 i => ?_, fun hc hd => ?_⟩
  · rw [getElem_ks_of_constantHalves (.inl (by rw [h0])) (.inl (by rw [h0])), h0]
    decide
  · rw [getElem_ks_of_constantHalves (.inr (by rw [h1])) (.inr (by rw [h1])), h1]
    decide
  · have hequal : ∀ i j : Fin 16, (ks key)[i] = (ks key)[j] := fun i j => by
      rw [getElem_ks_of_constantHalves hc hd i, getElem_ks_of_constantHalves hc hd j]
    exact ⟨hequal, des_dec_eq_enc_of_equal hequal⟩

/-! ## `KSX` (rules R91, R92) -/

theorem exec_ksx (e : Engine) (s : State) : exec (.ksx e) s = .next ((expand e s).setErr .none) := rfl

theorem expand_get_same (e : Engine) (s : State) :
    (expand e s).kv.get e = true ∧ (expand e s).rk.get e = ks (subKey s.mkReg e) := by
  simp [expand]

theorem expand_get_other (e g : Engine) (s : State) (hg : g ≠ e) :
    (expand e s).kv.get g = s.kv.get g ∧ (expand e s).rk.get g = s.rk.get g := by
  simp [expand, hg]

/-- Settles O29: the write of engine `e`'s registers, the end of the command, and the frame of both. -/
theorem ksxResult : Obligations.KsxResult := by
  intro e s
  obtain ⟨hkv, hrk⟩ := expand_get_same e s
  refine ⟨_, exec_ksx e s, fun i => ?_, hkv, fun g hg => ?_, rfl, rfl, exec_sameHostSide (exec_ksx e s)⟩
  · rw [State.setErr_rk, hrk]
  · exact (expand_get_other e g s hg).symm

/-- Deriving again what an engine holds changes nothing. -/
theorem expand_eq_self {e : Engine} {s : State} (hv : s.kv.get e = true) (hrk : s.rk.get e = ks (subKey s.mkReg e)) :
    expand e s = s := by
  rw [expand, State.setSchedule, ← hrk, ← hv, PerEngine.set_get_self, PerEngine.set_get_self]

theorem exec_ksx_of_held {e : Engine} {s : State} (hv : s.kv.get e = true)
    (hrk : s.rk.get e = ks (subKey s.mkReg e)) : exec (.ksx e) s = .next (s.setErr .none) := by
  rw [exec_ksx, expand_eq_self hv hrk]

/-- Settles O36: after `KSX e`, and in a valid engine under the invariant of rule R23, the engine already holds what the
derivation writes. -/
theorem ksxIsIdempotent : Obligations.KsxIsIdempotent := by
  refine ⟨fun e s t h => ?_, fun e s hs hv => exec_ksx_of_held hv (hs e hv)⟩
  cases (exec_ksx e s).symm.trans h
  obtain ⟨hkv, hrk⟩ := expand_get_same e s
  exact exec_ksx_of_held hkv hrk

/-! ## The time of a derivation (rules R23, R93) -/

theorem expand_scheduleOk {s : State} (hs : s.scheduleOk) (e : Engine) : (expand e s).scheduleOk :=
  (exec_scheduleOk hs (exec_ksx e s) : ((expand e s).setErr .none).scheduleOk)

theorem expand_sameDataInputs {s : State} (hs : s.scheduleOk) (e : Engine) : s.sameDataInputs (expand e s) where
  key := rfl
  len := rfl
  bufMax := rfl
  schedule_left := hs
  schedule_right := expand_scheduleOk hs e
  input := fun _ _ => rfl

theorem raise_sameOutAndErr {s u : State} (h : s.outBuf = u.outBuf) (x : ErrCode) :
    sameOutAndErr (raise x s) (raise x u) :=
  ⟨h, rfl⟩

theorem complete_setOut_sameOutAndErr (s u : State) (m : Memory) :
    sameOutAndErr (complete (s.setOut m)) (complete (u.setOut m)) :=
  ⟨rfl, rfl⟩

section
variable {s u : State} (h : s.sameDataInputs u) (hin : s.inBuf = u.inBuf) (hout : s.outBuf = u.outBuf)
include h hin hout

theorem execSingle_sameOutAndErr (dir : Dir) (e : Engine) :
    sameOutAndErr (execSingle dir e s) (execSingle dir e u) := by
  rw [execSingle, execSingle, ← h.checkLen_eq]
  cases checkLen .oneBlock s with
  | some x => exact raise_sameOutAndErr hout x
  | none =>
    simp only [derive_inBuf, derive_outBuf, hin, hout, h.derive_rk_eq e]
    cases u.inBuf.readBlock 0 with
    | error a => rfl
    | ok b => exact complete_setOut_sameOutAndErr _ _ _

theorem execEcb_sameOutAndErr (dir : Dir) : sameOutAndErr (execEcb dir s) (execEcb dir u) := by
  have hcount : blockCount s = blockCount u := by rw [blockCount, blockCount, h.len]
  rw [execEcb, execEcb, ← h.checkLen_eq]
  cases checkLen .wholeBlocks s with
  | some x => exact raise_sameOutAndErr hout x
  | none =>
    simp only [deriveAll_inBuf, deriveAll_outBuf, blockCount_deriveAll, hin, hout, h.deriveAll_rk_eq, hcount]
    cases ecbLoop dir (deriveAll u).rk u.inBuf (blockCount u) 0 u.outBuf with
    | error a => rfl
    | ok out => exact complete_setOut_sameOutAndErr _ _ _

theorem exec_sameOutAndErr {i : Instr} (hi : isData i = true) : sameOutAndErr (exec i s) (exec i u) := by
  cases i with
  | ksx e => cases hi
  | dese e => exact execSingle_sameOutAndErr h hin hout .enc e
  | desd e => exact execSingle_sameOutAndErr h hin hout .dec e
  | ecbd => exact execEcb_sameOutAndErr h hin hout .dec
  | ecbe => exact execEcb_sameOutAndErr h hin hout .enc

end

/-- Settles O37: an expansion keeps the invariant of rule R23, `IN` and `OUT`, and under the invariant the commands use
the schedules of the key whether they derive them or not. -/
theorem derivationTimeUnobservable : Obligations.DerivationTimeUnobservable :=
  fun _ e _ hi hs => exec_sameOutAndErr (expand_sameDataInputs hs e) rfl rfl hi

end Sys2Proof.Machine
end

section
/-! The DES block transform (41_des_block.md): what permutation by table does with a chain of tables and with the
complement, the initial permutation and its inverse (rule R110), the rounds one by one, backwards (rules R109, R112,
R113) and on complemented halves (rule R115), and the commands `DESE` and `DESD` (rules R116, R117). -/

namespace Sys2Proof

/-- The other direction. -/
def Dir.opposite : Dir → Dir
  | .enc => .dec
  | .dec => .enc

@[simp] theorem Dir.opposite_opposite (dir : Dir) : dir.opposite.opposite = dir := by
  cases dir <;> rfl

end Sys2Proof

namespace Sys2Proof.Machine

/-! ## Permutation by table: inverse tables and the complement (rule R9) -/

/-- Two tables of which the second leads every entry of the first back to its place undo each other. -/
theorem perm_perm_of_inverse {w : Nat} {t u : List Nat} (ht : t.length = w) (hu : u.length = w)
    (hbounds : ∀ p ∈ t, 1 ≤ p ∧ p ≤ w)
    (hinv : ∀ j, 1 ≤ j → j ≤ w → u.getD (t.getD (j - 1) 0 - 1) 0 = j) (v : BitVec w) :
    perm w t (perm w u v) = v := by
  refine eq_of_desBit_eq fun j hj hjw => ?_
  obtain ⟨hp, hpw⟩ := hbounds _ (getD_mem (by omega : j - 1 < t.length))
  rw [desBit_perm_getD t _ ht j hj hjw, desBit_perm_getD u v hu _ hp hpw, hinv j hj hjw]

/-- A table that names only positions of its input commutes with the complement. -/
theorem perm_not {w n : Nat} {t : List Nat} (ht : t.length = n) (hbounds : ∀ p ∈ t, 1 ≤ p ∧ p ≤ w) (v : BitVec w) :
    perm n t (~~~v) = ~~~perm n t v := by
  refine eq_of_desBit_eq fun j hj hjn => ?_
  obtain ⟨hp, hpw⟩ := hbounds _ (getD_mem (by omega : j - 1 < t.length))
  rw [desBit_not _ j hj hjn, desBit_perm_getD t _ ht j hj hjn, desBit_perm_getD t _ ht j hj hjn,
    desBit_not _ _ hp hpw]

/-! ## The halves of a block (rule R102) -/

theorem desSlice_append_left (a b : BitVec 32) : desSlice (a ++ b) 1 32 = a := by
  refine eq_of_desBit_eq fun k hk hk32 => ?_
  rw [desBit_desSlice _ 1 32 k (by omega) (by omega) hk hk32, desBit_append a b _ (by omega), if_pos (by omega),
    Nat.add_sub_cancel_left]

theorem desSlice_append_right (a b : BitVec 32) : desSlice (a ++ b) 33 32 = b := by
  refine eq_of_desBit_eq fun k hk hk32 => ?_
  rw [desBit_desSlice _ 33 32 k (by omega) (by omega) hk hk32, desBit_append a b _ (by omega), if_neg (by omega)]
  congr 1
  omega

theorem append_desSlice (x : BitVec 64) : desSlice x 1 32 ++ desSlice x 33 32 = x := by
  refine eq_of_desBit_eq fun k hk hk64 => ?_
  rw [desBit_append _ _ k hk64]
  split
  · rw [desBit_desSlice x 1 32 k (by omega) (by omega) hk (by omega), Nat.add_sub_cancel_left]
  · rw [desBit_desSlice x 33 32 _ (by omega) (by omega) (by omega) (by omega)]
    congr 1
    omega

theorem desSlice_not {w : Nat} (v : BitVec w) (p n : Nat) (hp : 1 ≤ p) (hpn : p + n ≤ w + 1) :
    desSlice (~~~v) p n = ~~~desSlice v p n := by
  refine eq_of_desBit_eq fun k hk hkn => ?_
  rw [desBit_not _ k hk hkn, desBit_desSlice _ p n k hp hpn hk hkn, desBit_desSlice _ p n k hp hpn hk hkn,
    desBit_not v _ (by omega) (by omega)]

/-! ## The initial permutation and its inverse (rules R101, R110) -/

theorem ipInvTable_ipTable : ∀ j, 1 ≤ j → j ≤ 64 → ipInvTable.getD (ipTable.getD (j - 1) 0 - 1) 0 = j := by
  intro j hj hj64
  have hall : ∀ i < 64, ipInvTable.getD (ipTable.getD i 0 - 1) 0 = i + 1 := by decide
  rw [hall (j - 1) (by omega), Nat.sub_add_cancel hj]

theorem ipTable_ipInvTable : ∀ j, 1 ≤ j → j ≤ 64 → ipTable.getD (ipInvTable.getD (j - 1) 0 - 1) 0 = j := by
  intro j hj hj64
  have hall : ∀ i < 64, ipTable.getD (ipInvTable.getD i 0 - 1) 0 = i + 1 := by decide
  rw [hall (j - 1) (by omega), Nat.sub_add_cancel hj]

theorem ipTable_bounds : ∀ p ∈ ipTable, 1 ≤ p ∧ p ≤ 64 := by decide

theorem ipInvTable_bounds : ∀ p ∈ ipInvTable, 1 ≤ p ∧ p ≤ 64 := by decide

@[simp] theorem ipInv_ipf (x : BitVec 64) : ipInv (ipf x) = x :=
  perm_perm_of_inverse (w := 64) rfl rfl ipInvTable_bounds ipTable_ipInvTable x

@[simp] theorem ipf_ipInv (x : BitVec 64) : ipf (ipInv x) = x :=
  perm_perm_of_inverse (w := 64) rfl rfl ipTable_bounds ipInvTable_ipTable x

/-- Settles O50: the tables undo each other entry by entry, and so do the permutations. -/
theorem initialPermutationInverse : Obligations.InitialPermutationInverse :=
  ⟨fun j hj hj64 => ⟨ipInvTable_ipTable j hj hj64, ipTable_ipInvTable j hj hj64⟩,
    fun x => ⟨ipInv_ipf x, ipf_ipInv x⟩, fun _ => rfl⟩

/-! ## The rounds one by one (rule R109) -/

theorem length_subkeyOrder (dir : Dir) (rk : Schedule) : (subkeyOrder dir rk).length = 16 := by
  cases dir <;> simp [subkeyOrder]

theorem getElem_subkeyOrder (dir : Dir) (rk : Schedule) (i : Fin 16) (h : i.val < (subkeyOrder dir rk).length) :
    (subkeyOrder dir rk)[i.val] = roundKeyOf dir rk i := by
  cases dir with
  | enc => simp [subkeyOrder, roundKeyOf]
  | dec => simp [subkeyOrder, roundKeyOf, List.getElem_reverse]

theorem rounds_append (keys keys' : List RoundKey) (lr : Halves) :
    rounds (keys ++ keys') lr = rounds keys' (rounds keys lr) :=
  List.foldl_append

theorem halvesAfter_succ (dir : Dir) (rk : Schedule) (lr : Halves) (i : Fin 16) :
    halvesAfter dir rk lr (i.val + 1) = feistelRound (halvesAfter dir rk lr i.val) (roundKeyOf dir rk i) := by
  have hi : i.val < (subkeyOrder dir rk).length := by rw [length_subkeyOrder]; exact i.isLt
  rw [halvesAfter, ← List.take_concat_get' _ _ hi, rounds_append, getElem_subkeyOrder]
  rfl

theorem halvesAfter_sixteen (dir : Dir) (rk : Schedule) (lr : Halves) :
    halvesAfter dir rk lr 16 = rounds (subkeyOrder dir rk) lr := by
  rw [halvesAfter, List.take_of_length_le (length_subkeyOrder dir rk).le]

/-- Settles O51: one more subkey is one more round, and sixteen are the whole transform. -/
theorem roundRecurrence : Obligations.RoundRecurrence := by
  intro dir rk lr i
  refine ⟨rfl, halvesAfter_sixteen dir rk lr, ?_, ?_⟩ <;> rw [halvesAfter_succ, feistelRound]

/-! ## The rounds backwards (rules R112, R113) -/

/-- A round with its halves swapped before and after undoes itself, whatever the round function is. -/
theorem feistelRound_swap_feistelRound (lr : Halves) (k : RoundKey) :
    feistelRound (feistelRound lr k).swap k = lr.swap := by
  obtain ⟨l, r⟩ := lr
  simp only [feistelRound, Prod.swap_prod_mk, BitVec.xor_assoc, BitVec.xor_self, BitVec.xor_zero]

/-- The same subkeys in reverse, on the swapped halves, lead back to the start. -/
theorem rounds_reverse_swap_rounds (keys : List RoundKey) (lr : Halves) :
    rounds keys.reverse (rounds keys lr).swap = lr.swap := by
  induction keys generalizing lr with
  | nil => rfl
  | cons k keys ih =>
    calc rounds (k :: keys).reverse (rounds (k :: keys) lr).swap
        = feistelRound (rounds keys.reverse (rounds keys (feistelRound lr k)).swap) k := by
          rw [List.reverse_cons, rounds_append]; rfl
      _ = feistelRound (feistelRound lr k).swap k := by rw [ih]
      _ = lr.swap := feistelRound_swap_feistelRound lr k

/-- The final swap of rule R110: the next transform starts from the halves the other way round. -/
theorem startHalves_finish (lr : Halves) : startHalves (finish lr) = lr.swap := by
  rw [startHalves, finish, ipf_ipInv, desSlice_append_left, desSlice_append_right, Prod.swap]

theorem finish_swap_startHalves (x : BitVec 64) : finish (startHalves x).swap = x := by
  rw [startHalves, finish, Prod.swap_prod_mk, append_desSlice, ipInv_ipf]

theorem subkeyOrder_opposite (dir : Dir) (rk : Schedule) :
    subkeyOrder dir.opposite rk = (subkeyOrder dir rk).reverse := by
  cases dir with
  | enc => rfl
  | dec => exact (List.reverse_reverse _).symm

theorem desBits_opposite_desBits (dir : Dir) (rk : Schedule) (x : BitVec 64) :
    desBits dir.opposite rk (desBits dir rk x) = x := by
  rw [desBits, desBits, startHalves_finish, subkeyOrder_opposite, rounds_reverse_swap_rounds,
    finish_swap_startHalves]

/-- Each direction undoes the other. -/
@[simp] theorem des_opposite_des (dir : Dir) (rk : Schedule) (b : Block) :
    des dir.opposite rk (des dir rk b) = b := by
  rw [des, des, be_bytesOf, desBits_opposite_desBits, bytesOf_be]

/-- Settles O52: each direction undoes the other, and with equal subkeys they are one. -/
theorem decryptInvertsEncrypt : Obligations.DecryptInvertsEncrypt := by
  intro rk b
  have hde : des .dec rk (des .enc rk b) = b := des_opposite_des .enc rk b
  refine ⟨hde, des_opposite_des .dec rk b, fun h => ⟨des_dec_eq_enc_of_equal h b, ?_⟩⟩
  rw [← des_dec_eq_enc_of_equal h, hde]

/-- Settles O53: the other direction is the inverse function. -/
theorem blockTransformBijective : Obligations.BlockTransformBijective := by
  intro dir rk
  have hright (b : Block) : des dir rk (des dir.opposite rk b) = b := by
    simpa only [Dir.opposite_opposite] using des_opposite_des dir.opposite rk b
  exact Function.bijective_iff_has_inverse.mpr ⟨des dir.opposite rk, des_opposite_des dir rk, hright⟩

/-! ## The complement (rule R115) -/

theorem ipf_not (x : BitVec 64) : ipf (~~~x) = ~~~ipf x :=
  perm_not rfl ipTable_bounds x

theorem ipInv_not (x : BitVec 64) : ipInv (~~~x) = ~~~ipInv x :=
  perm_not rfl ipInvTable_bounds x

theorem ef_not (r : BitVec 32) : ef (~~~r) = ~~~ef r :=
  perm_not rfl (by decide) r

/-- The two complements cancel where the subkey meets the expanded half. -/
theorem roundF_not (r : BitVec 32) (k : RoundKey) : roundF (~~~r) (~~~k) = roundF r k := by
  rw [roundF, roundF, ef_not, ← BitVec.not_xor_left, ← BitVec.not_xor_right, BitVec.not_not]

/-- Both halves complemented. -/
def complementHalves (lr : Halves) : Halves :=
  (~~~lr.1, ~~~lr.2)

theorem feistelRound_not (lr : Halves) (k : RoundKey) :
    feistelRound (complementHalves lr) (~~~k) = complementHalves (feistelRound lr k) := by
  simp only [feistelRound, complementHalves, roundF_not, BitVec.not_xor_left]

theorem rounds_map_not (keys : List RoundKey) (lr : Halves) :
    rounds (keys.map (~~~·)) (complementHalves lr) = complementHalves (rounds keys lr) := by
  induction keys generalizing lr with
  | nil => rfl
  | cons k keys ih =>
    have hround := ih (feistelRound lr k)
    rwa [← feistelRound_not] at hround

theorem startHalves_not (x : BitVec 64) : startHalves (~~~x) = complementHalves (startHalves x) := by
  rw [startHalves, ipf_not, desSlice_not _ 1 32 (by omega) (by omega), desSlice_not _ 33 32 (by omega) (by omega)]
  rfl

theorem finish_complementHalves (lr : Halves) : finish (complementHalves lr) = ~~~finish lr := by
  rw [finish, finish, ← ipInv_not, complementHalves, BitVec.not_append]

theorem ks_complementBytes (key : Block) : ks (complementBytes key) = (ks key).map (~~~·) := by
  refine Vector.ext fun i hi => ?_
  rw [Vector.getElem_map]
  exact keyScheduleComplement key ⟨i, hi⟩

theorem subkeyOrder_map (dir : Dir) (rk : Schedule) (f : RoundKey → RoundKey) :
    subkeyOrder dir (rk.map f) = (subkeyOrder dir rk).map f := by
  cases dir <;> simp [subkeyOrder, Vector.toList_map]

theorem desBits_not (dir : Dir) (rk : Schedule) (x : BitVec 64) :
    desBits dir (rk.map (~~~·)) (~~~x) = ~~~desBits dir rk x := by
  rw [desBits, desBits, startHalves_not, subkeyOrder_map, rounds_map_not, finish_complementHalves]

theorem bytesOf_not (v : BitVec (8 * 8)) : bytesOf 8 (~~~v) = complementBytes (bytesOf 8 v) := by
  rw [← bytesOf_be (complementBytes (bytesOf 8 v)), be_complementBytes, be_bytesOf]

/-- Settles O54: subkeys and halves are complemented in every round, and the round function sees no difference. -/
theorem complementLaw : Obligations.ComplementLaw := by
  intro dir key b
  rw [des, des, ks_complementBytes, be_complementBytes, desBits_not, bytesOf_not]

/-! ## `DESE` and `DESD` (rules R93, R116, R117) -/

theorem derive_rk_get (e : Engine) (s : State) : (derive e s).rk.get e = derivedKeys s e :=
  (derive_get_same e s).2

/-- One block, where the length check passes and the block is written. -/
theorem execSingle_of_readBlock {dir : Dir} {e : Engine} {s : State} {b : Block} (hc : checkLen .oneBlock s = none)
    (hb : s.inBuf.readBlock 0 = .ok b) :
    execSingle dir e s = .next (((derive e s).setOut
      (s.outBuf.writeBlock 0 (des dir (derivedKeys s e) b))).setErr .none) := by
  rcases execSingle_cases dir e s with ⟨x, hx, -⟩ | ⟨-, a, ha, -⟩ | ⟨-, b', hb', he⟩
  · cases hc.symm.trans hx
  · cases hb.symm.trans ha
  · cases hb.symm.trans hb'
    rw [he, derive_rk_get]

/-- The whole effect of a command that is one block of direction `dir`. -/
theorem oneBlockRuns_of_execSingle {dir : Dir} {i : Engine → Instr} (hi : ∀ e s, exec (i e) s = execSingle dir e s) :
    oneBlockRuns dir i := by
  intro e s b hmax hlen hin
  have hlen8 : s.len.toNat = 8 := by rw [hlen]; rfl
  have hc : checkLen .oneBlock s = none := checkLen_oneBlock_eq_none.mpr (by omega)
  have hb : s.inBuf.readBlock 0 = .ok b := Memory.readBlock_eq_ok.mpr (by simpa only [Nat.zero_add] using hin)
  have hrun := (hi e s).trans (execSingle_of_readBlock hc hb)
  refine ⟨_, hrun, fun j hj => ?_, fun a ha => ?_, (derive_get_same e s).1, derive_rk_get e s,
    fun g hg => derive_get_other e g s hg, rfl, exec_sameHostSide hrun⟩
  · simpa only [State.setErr_outBuf, State.setOut_outBuf, Nat.zero_add] using
      Memory.read_writeBlock_in s.outBuf 0 j _ hj
  · exact Memory.read_writeBlock_out s.outBuf 0 a _ (.inr (by omega))

/-- Settles O30: `DESE` is one block in the encrypt direction. -/
theorem deseResult : Obligations.DeseResult :=
  oneBlockRuns_of_execSingle fun _ _ => rfl

/-- Settles O31: `DESD` is one block in the decrypt direction. -/
theorem desdResult : Obligations.DesdResult :=
  oneBlockRuns_of_execSingle fun _ _ => rfl

end Sys2Proof.Machine
end

section
/-! Triple-DES and the ECB buffer (42_tdes_ecb.md): the two orderings undo each other (rule R132) and collapse to single
DES (rule R137), `ECB` as a map over the blocks of a buffer (rules R133, R134, R138), the loop as that map on the bytes
of `IN`, in any order of the blocks (rule R139), and the commands `ECBD` and `ECBE` (rules R135, R136, R140, R141). -/

namespace Sys2Proof.Machine

/-! ## Triple-DES (rules R131, R132, R137) -/

@[simp] theorem des_dec_des_enc (rk : Schedule) (b : Block) : des .dec rk (des .enc rk b) = b :=
  des_opposite_des .enc rk b

@[simp] theorem des_enc_des_dec (rk : Schedule) (b : Block) : des .enc rk (des .dec rk b) = b :=
  des_opposite_des .dec rk b

/-- Each ordering undoes the other, stage by stage from the inside. -/
@[simp] theorem tdes_opposite_tdes (dir : Dir) (rk : PerEngine Schedule) (b : Block) :
    tdes dir.opposite rk (tdes dir rk b) = b := by
  cases dir with
  | enc => simp only [Dir.opposite, tdes, des_dec_des_enc, des_enc_des_dec]
  | dec => simp only [Dir.opposite, tdes, des_dec_des_enc, des_enc_des_dec]

theorem tdes_injective (dir : Dir) (rk : PerEngine Schedule) : Function.Injective (tdes dir rk) :=
  Function.LeftInverse.injective (tdes_opposite_tdes dir rk)

/-- Settles O55, the two directions of one law. -/
theorem tripleDesInverse : Obligations.TripleDesInverse :=
  fun rk b => ⟨tdes_opposite_tdes .enc rk b, tdes_opposite_tdes .dec rk b⟩

/-- The stages of engines 1 and 2 cancel. -/
theorem tdes_of_e1_eq_e2 (dir : Dir) (k k' : Schedule) (b : Block) : tdes dir ⟨k, k, k'⟩ b = des dir k' b := by
  cases dir with
  | enc => exact congrArg (des .enc k') (des_dec_des_enc k b)
  | dec => exact des_dec_des_enc k (des .dec k' b)

/-- The stages of engines 2 and 3 cancel. -/
theorem tdes_of_e2_eq_e3 (dir : Dir) (k k' : Schedule) (b : Block) : tdes dir ⟨k', k, k⟩ b = des dir k' b := by
  cases dir with
  | enc => exact des_enc_des_dec k (des .enc k' b)
  | dec => exact congrArg (des .dec k') (des_enc_des_dec k b)

/-- Settles O56: equal effective bits give equal schedules, and two neighbouring stages cancel. -/
theorem degenerateKeys : Obligations.DegenerateKeys := by
  intro dir k1 k2 k3 b
  refine ⟨fun h12 => ?_, fun h23 => ?_, fun h12 h23 => ?_⟩
  · rw [ks_eq_of_sameEffective h12, tdes_of_e1_eq_e2]
  · rw [ks_eq_of_sameEffective h23, tdes_of_e2_eq_e3]
  · rw [ks_eq_of_sameEffective h12, ks_eq_of_sameEffective h23, tdes_of_e1_eq_e2]

/-! ## `ECB` as a map over blocks (rules R133, R134, R138) -/

/-- The byte sequence of a sequence of blocks. -/
def joinBlocks (bs : List Block) : List Byte :=
  bs.flatMap Vector.toList

@[simp] theorem joinBlocks_nil : joinBlocks [] = [] := rfl

@[simp] theorem joinBlocks_cons (b : Block) (bs : List Block) : joinBlocks (b :: bs) = b.toList ++ joinBlocks bs := rfl

@[simp] theorem length_joinBlocks (bs : List Block) : (joinBlocks bs).length = 8 * bs.length := by
  simp [joinBlocks, Nat.mul_comm]

/-- A whole number of blocks is a sequence of blocks. -/
theorem exists_eq_joinBlocks {x : List Byte} (h : x.length % 8 = 0) : ∃ bs, x = joinBlocks bs := by
  obtain ⟨m, hm⟩ := Nat.dvd_of_mod_eq_zero h
  clear h
  induction m generalizing x with
  | zero => exact ⟨[], List.length_eq_zero_iff.mp hm⟩
  | succ m ih =>
    obtain ⟨bs, hbs⟩ := ih (x := x.drop 8) (by rw [List.length_drop]; omega)
    have h8 : (x.take 8).length = 8 := by rw [List.length_take]; omega
    refine ⟨⟨(x.take 8).toArray, h8⟩ :: bs, ?_⟩
    rw [joinBlocks_cons, ← hbs]
    exact (List.take_append_drop 8 x).symm

/-- Byte `j` is byte `j % 8` of block `j / 8`. -/
theorem getElem?_joinBlocks (bs : List Block) (j : Nat) :
    (joinBlocks bs)[j]? = bs[j / 8]?.bind fun b => b.toList[j % 8]? := by
  induction bs generalizing j with
  | nil => simp
  | cons b bs ih =>
    by_cases hj : j < 8
    · rw [joinBlocks_cons, List.getElem?_append_left (by simpa using hj), Nat.div_eq_of_lt hj, Nat.mod_eq_of_lt hj]
      rfl
    · obtain ⟨i, rfl⟩ := Nat.exists_eq_add_of_le' (Nat.not_lt.mp hj)
      rw [joinBlocks_cons, List.getElem?_append_right (by simp), Vector.length_toList, Nat.add_sub_cancel, ih,
        Nat.add_div_right i (by decide), Nat.add_mod_right, List.getElem?_cons_succ]

/-- The bytes `8k` to `8k + 7` are block `k`. -/
theorem take_drop_joinBlocks (bs : List Block) {k : Nat} (hk : k < bs.length) :
    ((joinBlocks bs).drop (8 * k)).take 8 = bs[k].toList := by
  induction bs generalizing k with
  | nil => cases hk
  | cons b bs ih =>
    cases k with
    | zero => simp
    | succ k =>
      rw [joinBlocks_cons, Nat.mul_succ, Nat.add_comm, ← List.drop_drop, List.drop_left' b.length_toList]
      exact ih (Nat.lt_of_succ_lt_succ hk)

theorem ecb_toList_append (dir : Dir) (rk : PerEngine Schedule) (b : Block) (rest : List Byte) :
    ecb dir rk (b.toList ++ rest) = (tdes dir rk b).toList ++ ecb dir rk rest := by
  obtain ⟨⟨bytes⟩, h⟩ := b
  match bytes, h with
  | [_, _, _, _, _, _, _, _], _ => rfl

/-- `ECB` transforms each block and carries nothing over (rule R133). -/
@[simp] theorem ecb_joinBlocks (dir : Dir) (rk : PerEngine Schedule) (bs : List Block) :
    ecb dir rk (joinBlocks bs) = joinBlocks (bs.map (tdes dir rk)) := by
  induction bs with
  | nil => rfl
  | cons b bs ih => rw [joinBlocks_cons, ecb_toList_append, ih, List.map_cons, joinBlocks_cons]

/-- Settles O57: as many blocks come out as go in. -/
theorem ecbKeepsLength : Obligations.EcbKeepsLength := by
  intro dir rk buf h
  obtain ⟨bs, rfl⟩ := exists_eq_joinBlocks h
  rw [ecb_joinBlocks, length_joinBlocks, length_joinBlocks, List.length_map]

/-- `ECB` in the other ordering gives the buffer back, block by block. -/
theorem ecb_opposite_ecb (dir : Dir) (rk : PerEngine Schedule) {buf : List Byte} (h : buf.length % 8 = 0) :
    ecb dir.opposite rk (ecb dir rk buf) = buf := by
  obtain ⟨bs, rfl⟩ := exists_eq_joinBlocks h
  have hid : tdes dir.opposite rk ∘ tdes dir rk = id := funext (tdes_opposite_tdes dir rk)
  rw [ecb_joinBlocks, ecb_joinBlocks, List.map_map, hid, List.map_id]

/-- Buffers that agree outside the bytes of block `k` are sequences of blocks that agree but for block `k`. -/
theorem getElem?_eq_of_joinBlocks_eq_outside {bs cs : List Block} {k : Nat} (hlen : bs.length = cs.length)
    (h : ∀ j, j < 8 * k ∨ 8 * k + 8 ≤ j → (joinBlocks bs)[j]? = (joinBlocks cs)[j]?) {l : Nat} (hl : l ≠ k) :
    bs[l]? = cs[l]? := by
  by_cases hlt : l < bs.length
  · rw [List.getElem?_eq_getElem hlt, List.getElem?_eq_getElem (hlen ▸ hlt), Option.some_inj]
    refine Vector.ext fun i hi => ?_
    have hbyte := h (8 * l + i) (by omega)
    simpa [getElem?_joinBlocks, hlt, hlen ▸ hlt, Nat.mul_add_div, Nat.mod_eq_of_lt, Nat.div_eq_of_lt, hi] using hbyte
  · rw [List.getElem?_eq_none (by omega), List.getElem?_eq_none (by omega)]

/-- Settles O58: the buffer is a sequence of blocks, `ECB` maps `TDES` over it, and `TDES` is injective. -/
theorem blocksAreIndependent : Obligations.BlocksAreIndependent := by
  intro dir rk m k x hx hk
  obtain ⟨bs, rfl⟩ := exists_eq_joinBlocks (x := x) (by omega)
  obtain rfl : bs.length = m := by simpa using hx
  have hout (l : Nat) (hl : l < bs.length) :
      ((ecb dir rk (joinBlocks bs)).drop (8 * l)).take 8 = (tdes dir rk bs[l]).toList := by
    rw [ecb_joinBlocks, take_drop_joinBlocks _ (by simpa using hl), List.getElem_map]
  refine ⟨fun b hb => ?_, fun l hl hkl => ?_, fun y hy hxy => ?_⟩
  · rw [take_drop_joinBlocks bs hk, Vector.toList_inj] at hb
    rw [hout k hk, hb]
  · rw [take_drop_joinBlocks bs hk, take_drop_joinBlocks bs hl, Vector.toList_inj] at hkl
    rw [hout k hk, hout l hl, hkl]
  · obtain ⟨cs, rfl⟩ := exists_eq_joinBlocks (x := y) (by omega)
    have hcs : cs.length = bs.length := by simpa using hy
    have hother {l : Nat} (hl : l ≠ k) : bs[l]? = cs[l]? :=
      getElem?_eq_of_joinBlocks_eq_outside hcs.symm hxy hl
    refine ⟨fun j hj => ?_, fun hne heq => hne ?_⟩
    · rw [ecb_joinBlocks, ecb_joinBlocks, getElem?_joinBlocks, getElem?_joinBlocks, List.getElem?_map,
        List.getElem?_map, hother (l := j / 8) (by omega)]
    · rw [ecb_joinBlocks, ecb_joinBlocks, take_drop_joinBlocks _ (by simpa using hk),
        take_drop_joinBlocks _ (by simpa [hcs] using hk), Vector.toList_inj, List.getElem_map, List.getElem_map] at heq
      have hsame := tdes_injective dir rk heq
      refine congrArg joinBlocks (List.ext_getElem? fun l => ?_)
      by_cases hl : l = k
      · subst hl
        rw [List.getElem?_eq_getElem hk, List.getElem?_eq_getElem (hcs ▸ hk), hsame]
      · exact hother hl

/-! ## The loop over the bytes of the two spaces (rules R133, R135, R136) -/

@[simp] theorem length_bytesAt (m : Memory) (a n : Nat) : (bytesAt m a n).length = n := by
  simp [bytesAt]

theorem bytesAt_congr {m m' : Memory} {a n : Nat} (h : ∀ j, j < n → m.read (a + j) = m'.read (a + j)) :
    bytesAt m a n = bytesAt m' a n :=
  List.map_congr_left fun j hj => by rw [h j (List.mem_range.mp hj)]

theorem bytesAt_add (m : Memory) (a n k : Nat) : bytesAt m a (n + k) = bytesAt m a n ++ bytesAt m (a + n) k := by
  simp [bytesAt, List.range_add, Nat.add_assoc]

theorem bytesAt_eq_of_read {m : Memory} {a : Nat} {bs : List Byte}
    (h : ∀ j (hj : j < bs.length), m.read (a + j) = some bs[j]) : bytesAt m a bs.length = bs := by
  refine List.ext_getElem (length_bytesAt m a _) fun j _ hj => ?_
  simp [bytesAt, h j hj]

theorem bytesAt_writeBytes (m : Memory) (a : Nat) (bs : List Byte) : bytesAt (m.writeBytes a bs) a bs.length = bs :=
  bytesAt_eq_of_read fun j hj => Memory.read_writeBytes_in m a j bs hj

theorem bytesAt_of_readBlock {m : Memory} {a : Nat} {b : Block} (h : m.readBlock a = .ok b) :
    bytesAt m a 8 = b.toList := by
  simpa using bytesAt_eq_of_read (bs := b.toList) fun j hj => by
    simpa using Memory.readBlock_eq_ok.mp h j (by simpa using hj)

theorem bytesAt_writeBlock (m : Memory) (a : Nat) (b : Block) : bytesAt (m.writeBlock a b) a 8 = b.toList :=
  bytesAt_of_readBlock (Memory.readBlock_eq_ok.mpr fun j hj => Memory.read_writeBlock_in m a j b hj)

/-- The loop leaves in its range of `OUT` the `ECB` of the bytes of `IN`: a later iteration touches no earlier block. -/
theorem ecbLoop_bytesAt {dir : Dir} {rk : PerEngine Schedule} {inBuf out out' : Memory} {m o : Nat}
    (h : ecbLoop dir rk inBuf m o out = .ok out') :
    bytesAt out' o (8 * m) = ecb dir rk (bytesAt inBuf o (8 * m)) := by
  induction m generalizing o out with
  | zero => rfl
  | succ m ih =>
    rw [ecbLoop] at h
    split at h
    next => cases h
    next b hb =>
      have hfirst : bytesAt out' o 8 = (tdes dir rk b).toList := by
        rw [← bytesAt_writeBlock out o]
        exact bytesAt_congr fun j hj => ecbLoop_read_outside h (.inl (by omega))
      rw [Nat.mul_succ, Nat.add_comm, bytesAt_add, bytesAt_add, bytesAt_of_readBlock hb, ecb_toList_append, hfirst,
        ih h]

/-! ## `ECBD` and `ECBE` (rules R93, R135, R136, R140, R141) -/

theorem deriveAll_rk (s : State) :
    (deriveAll s).rk = ⟨derivedKeys s .e1, derivedKeys s .e2, derivedKeys s .e3⟩ :=
  PerEngine.ext_get fun e => by
    rw [(deriveAll_get e s).2]
    cases e <;> rfl

/-- The whole buffer, where the length check passes and the loop ends. -/
theorem execEcb_of_ecbLoop {dir : Dir} {s : State} {out : Memory} (hc : checkLen .wholeBlocks s = none)
    (hl : ecbLoop dir (deriveAll s).rk s.inBuf (blockCount s) 0 s.outBuf = .ok out) :
    execEcb dir s = .next (((deriveAll s).setOut out).setErr .none) := by
  rcases execEcb_cases dir s with ⟨x, hx, -⟩ | ⟨-, a, ha, -⟩ | ⟨-, out', hl', he⟩
  · cases hc.symm.trans hx
  · cases hl.symm.trans ha
  · cases hl.symm.trans hl'
    exact he

/-- The whole effect of a command that is the loop in ordering `dir`. -/
theorem wholeBufferRuns_of_execEcb {dir : Dir} {i : Instr} (hi : ∀ s, exec i s = execEcb dir s) :
    wholeBufferRuns dir i := by
  intro s hmax h8 hin
  have hend := eight_mul_blockCount h8
  obtain ⟨out, hl⟩ := ecbLoop_ends (dir := dir) (rk := (deriveAll s).rk) (m := blockCount s) (o := 0) s.outBuf
    fun a _ ha => hin a (by omega)
  have hrun := (hi s).trans (execEcb_of_ecbLoop (checkLen_wholeBlocks_eq_none.mpr ⟨hmax, h8⟩) hl)
  refine ⟨_, hrun, ?_, fun a ha => ecbLoop_isSome_inside hl (Nat.zero_le a) (by omega),
    fun a ha => ecbLoop_read_outside hl (.inr (by omega)), fun e => deriveAll_get e s, rfl, exec_sameHostSide hrun⟩
  rw [← deriveAll_rk, ← hend]
  exact ecbLoop_bytesAt hl

/-- Settles O32: `ECBD` is the loop in the decrypt ordering. -/
theorem ecbdResult : Obligations.EcbdResult :=
  wholeBufferRuns_of_execEcb fun _ => rfl

/-- Settles O33: `ECBE` is the loop in the encrypt ordering. -/
theorem ecbeResult : Obligations.EcbeResult :=
  wholeBufferRuns_of_execEcb fun _ => rfl

/-- Settles O35: with no block the loop ends where it began. -/
theorem emptyBufferSucceeds : Obligations.EmptyBufferSucceeds := by
  intro i s hi hlen
  have hlen0 : s.len.toNat = 0 := by rw [hlen]; rfl
  have hcount : blockCount s = 0 := by rw [blockCount, hlen0]
  have hc : checkLen .wholeBlocks s = none := checkLen_wholeBlocks_eq_none.mpr (by omega)
  obtain ⟨dir, hdir⟩ : ∃ dir, exec i s = execEcb dir s := by
    rcases hi with rfl | rfl
    · exact ⟨.dec, rfl⟩
    · exact ⟨.enc, rfl⟩
  have hl : ecbLoop dir (deriveAll s).rk s.inBuf (blockCount s) 0 s.outBuf = .ok s.outBuf := by rw [hcount, ecbLoop]
  have hrun := hdir.trans (execEcb_of_ecbLoop hc hl)
  exact ⟨_, hrun, rfl, rfl, exec_sameHostSide hrun, fun e => deriveAll_get e s⟩

/-- An engine that holds what `s` derives is not derived again. -/
theorem derivedKeys_of_valid {s u : State} {e : Engine} (hkv : u.kv.get e = true) (hrk : u.rk.get e = derivedKeys s e) :
    derivedKeys u e = derivedKeys s e :=
  (if_pos hkv).trans hrk

theorem copyBack_inputReady (n : Nat) (s : State) : (copyBack n s).inputReady n := by
  intro a ha
  have hread := Memory.read_writeBytes_in s.inBuf 0 a (bytesAt s.outBuf 0 n) (by simpa using ha)
  rw [Nat.zero_add] at hread
  exact Option.isSome_of_eq_some hread

theorem bytesAt_copyBack (n : Nat) (s : State) : bytesAt (copyBack n s).inBuf 0 n = bytesAt s.outBuf 0 n := by
  simpa only [length_bytesAt, copyBack, State.setIn_inBuf] using bytesAt_writeBytes s.inBuf 0 (bytesAt s.outBuf 0 n)

/-- The first command leaves all engines valid, so the second runs the other ordering with the same subkeys. -/
theorem roundTrips_of_wholeBufferRuns {dir : Dir} {first second : Instr} (hfirst : wholeBufferRuns dir first)
    (hsecond : wholeBufferRuns dir.opposite second) : roundTrips first second := by
  intro s hmax h8 hin
  obtain ⟨t, ht, hout, -, -, hkeys, -, hcfg, -, hlen, -, -, -⟩ := hfirst s hmax h8 hin
  have hlenCopy : (copyBack s.len.toNat t).len = s.len := hlen
  have hmaxCopy : (copyBack s.len.toNat t).bufMax = s.bufMax := congrArg Config.bufMax hcfg
  have hderived (e : Engine) : derivedKeys (copyBack s.len.toNat t) e = derivedKeys s e :=
    derivedKeys_of_valid (hkeys e).1 (hkeys e).2
  obtain ⟨u, hu, hback, -, -, -, herr, -⟩ := hsecond (copyBack s.len.toNat t) (by rwa [hlenCopy, hmaxCopy])
    (by rwa [hlenCopy]) (hlenCopy ▸ copyBack_inputReady _ t)
  refine ⟨t, u, ht, hu, ?_, herr⟩
  rw [hlenCopy, bytesAt_copyBack, hout, hderived, hderived, hderived] at hback
  rw [hback, ecb_opposite_ecb dir _ (by rwa [length_bytesAt])]

/-- Settles O39: the orderings of the two commands are opposite. -/
theorem roundTripOnCore : Obligations.RoundTripOnCore :=
  ⟨roundTrips_of_wholeBufferRuns (dir := .enc) ecbeResult ecbdResult,
    roundTrips_of_wholeBufferRuns (dir := .dec) ecbdResult ecbeResult⟩

/-! ## The order of the blocks (rules R42, R51, R139) -/

theorem Memory.write_of_lt_head {m : Memory} {a : Nat} (h : ∀ d ∈ m.head?, a < d.1) (x : Byte) :
    m.write a x = (a, x) :: m := by
  cases m with
  | nil => rfl
  | cons d t => exact if_pos (h d rfl)

theorem Memory.write_comm_of_lt (m : Memory) {a c : Nat} (h : a < c) (x y : Byte) :
    (m.write a x).write c y = (m.write c y).write a x := by
  have hca : ¬ c < a := Nat.not_lt_of_gt h
  induction m with
  | nil => simp [Memory.write, h, hca, Nat.ne_of_gt h]
  | cons d t ih =>
    rcases Nat.lt_trichotomy a d.1 with hlt | heq | hgt
    · have hhead : ∀ e ∈ (Memory.write (d :: t) c y).head?, a < e.1 := by
        intro e he
        rcases Memory.head_write (d :: t) c y e he with hc | hd
        · exact hc ▸ h
        · cases hd
          exact hlt
      rw [Memory.write_of_lt_head hhead, Memory.write_of_lt_head (m := d :: t) (by simpa using hlt), Memory.write,
        if_neg hca, if_neg (Nat.ne_of_gt h)]
    · simp [Memory.write, ← heq, hca, Nat.ne_of_gt h]
    · have hdc : d.1 < c := hgt.trans h
      simp [Memory.write, Nat.not_lt_of_gt, Nat.ne_of_gt, hgt, hdc, ih]

theorem Memory.write_comm (m : Memory) {a c : Nat} (h : a ≠ c) (x y : Byte) :
    (m.write a x).write c y = (m.write c y).write a x := by
  rcases Nat.lt_or_gt_of_ne h with hlt | hgt
  · exact m.write_comm_of_lt hlt x y
  · exact (m.write_comm_of_lt hgt y x).symm

theorem Memory.writeBytes_write_comm (m : Memory) {a c : Nat} {bs : List Byte} (h : c < a ∨ a + bs.length ≤ c)
    (y : Byte) : (m.writeBytes a bs).write c y = (m.write c y).writeBytes a bs := by
  induction bs generalizing m a with
  | nil => rfl
  | cons b bs ih =>
    rw [List.length_cons] at h
    rw [Memory.writeBytes, Memory.writeBytes, ih (m.write a b) (by omega), m.write_comm (by omega)]

theorem Memory.writeBytes_comm (m : Memory) {a c : Nat} {bs cs : List Byte}
    (h : c + cs.length ≤ a ∨ a + bs.length ≤ c) :
    (m.writeBytes a bs).writeBytes c cs = (m.writeBytes c cs).writeBytes a bs := by
  induction cs generalizing m c with
  | nil => rfl
  | cons y cs ih =>
    rw [List.length_cons] at h
    rw [Memory.writeBytes, Memory.writeBytes, m.writeBytes_write_comm (by omega), ih _ (by omega)]

theorem Memory.writeBlock_eq_writeBytes (m : Memory) (a : Nat) (b : Block) :
    m.writeBlock a b = m.writeBytes a b.toList := by
  obtain ⟨⟨bytes⟩, h⟩ := b
  match bytes, h with
  | [_, _, _, _, _, _, _, _], _ => rfl

theorem transformBlock_comm (dir : Dir) (rk : PerEngine Schedule) (inBuf out : Memory) (k l : Nat) :
    transformBlock dir rk inBuf (transformBlock dir rk inBuf out k) l =
      transformBlock dir rk inBuf (transformBlock dir rk inBuf out l) k := by
  rcases eq_or_ne k l with rfl | hne
  · rfl
  simp only [transformBlock]
  cases inBuf.readBlock (8 * k) with
  | error a => rfl
  | ok b =>
    cases inBuf.readBlock (8 * l) with
    | error a => rfl
    | ok c =>
      simp only [Memory.writeBlock_eq_writeBytes]
      exact out.writeBytes_comm (by simp only [Vector.length_toList]; omega)

/-- The loop that ends is its iterations one after the other. -/
theorem foldl_transformBlock_of_ecbLoop {dir : Dir} {rk : PerEngine Schedule} {inBuf out out' : Memory} {m k : Nat}
    (h : ecbLoop dir rk inBuf m (8 * k) out = .ok out') :
    (List.range' k m).foldl (transformBlock dir rk inBuf) out = out' := by
  induction m generalizing k out with
  | zero => exact Except.ok.inj h
  | succ m ih =>
    rw [ecbLoop] at h
    split at h
    next => cases h
    next b hb =>
      have hstep : transformBlock dir rk inBuf out k = out.writeBlock (8 * k) (tdes dir rk b) := by
        rw [transformBlock, hb]
      rw [List.range'_succ, List.foldl_cons, hstep]
      exact ih h

/-- Settles O40: the blocks do not overlap, so the iterations commute, in canonical form or not. -/
theorem blockOrderUnobservable : Obligations.BlockOrderUnobservable := by
  intro dir rk inBuf out out' m order _ horder hl
  rw [← foldl_transformBlock_of_ecbLoop (k := 0) hl, ← List.range_eq_range']
  exact horder.foldl_eq' (fun k _ l _ z => transformBlock_comm dir rk inBuf z k l) out

end Sys2Proof.Machine
end

section
/-! The exceptions (60_exceptions.md): what the length check of a command answers (rules R152 to R154), that a command
whose check answers a code does nothing but set it (rule R157) and completes otherwise, and what follows for the priority
(rule R156) and the precision (rule R158) of exceptions. -/

namespace Sys2Proof.Machine

/-! ## The length checks (rules R46, R152 to R154) -/

theorem checkLen_of_bufMax_lt {s : State} (h : s.bufMax < s.len.toNat) (r : LenRule) :
    checkLen r s = some .capacityError :=
  if_pos h

theorem checkLen_wholeBlocks_of_ragged {s : State} (hmax : s.len.toNat ≤ s.bufMax) (h8 : s.len.toNat % 8 ≠ 0) :
    checkLen .wholeBlocks s = some .sizeError :=
  (if_neg (Nat.not_lt.mpr hmax)).trans (if_neg h8)

theorem checkLen_oneBlock_of_ne_eight {s : State} (hmax : s.len.toNat ≤ s.bufMax) (h8 : s.len.toNat ≠ 8) :
    checkLen .oneBlock s = some .contractViolation :=
  (if_neg (Nat.not_lt.mpr hmax)).trans (if_neg h8)

/-- What the length check of a command answers: `KSX` has none (rule R91), the data commands have the two rules of R46. -/
def lenError : Instr → State → Option ErrCode
  | .ksx _, _ => none
  | .dese _, s | .desd _, s => checkLen .oneBlock s
  | .ecbd, s | .ecbe, s => checkLen .wholeBlocks s

theorem lenError_of_isData {i : Instr} (h : isData i = true) (s : State) : ∃ r, lenError i s = checkLen r s := by
  cases i with
  | ksx e => cases h
  | dese e | desd e => exact ⟨.oneBlock, rfl⟩
  | ecbd | ecbe => exact ⟨.wholeBlocks, rfl⟩

/-- After `IllegalCommand`, the checks of rule R156 are the length check of the command. -/
theorem reportedCode_of_decode {w : Byte} {i : Instr} (h : decode w = .ok i) (s : State) :
    reportedCode w s = (lenError i s).getD .none := by
  cases i with
  | ksx e => rw [reportedCode, h, lenError, Option.getD_none]
  | dese e => exact reportedCode_oneBlock (.inl h) s
  | desd e => exact reportedCode_oneBlock (.inr h) s
  | ecbd => exact reportedCode_wholeBlocks (.inl h) s
  | ecbe => exact reportedCode_wholeBlocks (.inr h) s

theorem reportedCode_of_decode_error {w : Byte} {x : Illegal} (h : decode w = .error x) (s : State) :
    reportedCode w s = .illegalCommand := by
  rw [reportedCode, h]

/-! ## A command whose check answers a code, and one whose check passes (rules R150, R157) -/

theorem execSingle_of_checkLen_some {s : State} {x : ErrCode} (h : checkLen .oneBlock s = some x) (dir : Dir)
    (e : Engine) : execSingle dir e s = .next (s.setErr x) := by
  rw [execSingle, h]
  rfl

theorem execEcb_of_checkLen_some {s : State} {x : ErrCode} (h : checkLen .wholeBlocks s = some x) (dir : Dir) :
    execEcb dir s = .next (s.setErr x) := by
  rw [execEcb, h]
  rfl

theorem exec_of_lenError_some {i : Instr} {s : State} {x : ErrCode} (h : lenError i s = some x) :
    exec i s = .next (s.setErr x) := by
  cases i with
  | ksx e => cases h
  | dese e => exact execSingle_of_checkLen_some h .enc e
  | desd e => exact execSingle_of_checkLen_some h .dec e
  | ecbd => exact execEcb_of_checkLen_some h .dec
  | ecbe => exact execEcb_of_checkLen_some h .enc

theorem execSingle_err_of_checkLen_none {dir : Dir} {e : Engine} {s t : State} (hc : checkLen .oneBlock s = none)
    (h : execSingle dir e s = .next t) : t.err = .none := by
  rcases execSingle_cases dir e s with ⟨x, hx, -⟩ | ⟨-, a, -, he⟩ | ⟨-, b, -, he⟩
  · cases hc.symm.trans hx
  · cases he.symm.trans h
  · cases he.symm.trans h
    rfl

theorem execEcb_err_of_checkLen_none {dir : Dir} {s t : State} (hc : checkLen .wholeBlocks s = none)
    (h : execEcb dir s = .next t) : t.err = .none := by
  rcases execEcb_cases dir s with ⟨x, hx, -⟩ | ⟨-, a, -, he⟩ | ⟨-, out, -, he⟩
  · cases hc.symm.trans hx
  · cases he.symm.trans h
  · cases he.symm.trans h
    rfl

theorem exec_err_of_lenError_none {i : Instr} {s t : State} (hc : lenError i s = none) (h : exec i s = .next t) :
    t.err = .none := by
  cases i with
  | ksx e =>
    cases h
    rfl
  | dese e | desd e => exact execSingle_err_of_checkLen_none hc h
  | ecbd | ecbe => exact execEcb_err_of_checkLen_none hc h

/-- What a command that answers a next state leaves in `ERR`: the code of its length check, or 0. -/
theorem exec_err {i : Instr} {s t : State} (h : exec i s = .next t) : t.err = (lenError i s).getD .none := by
  cases hc : lenError i s with
  | none => exact exec_err_of_lenError_none hc h
  | some x =>
    cases (exec_of_lenError_some hc).symm.trans h
    rfl

/-! ## Priority and precision (rules R156, R158) -/

/-- Settles O27: a word that is no command's is rejected before its length is looked at; else the code is that of the
length check, and a command whose check answers a code sets it and does nothing else. -/
theorem exceptionPriority : Obligations.ExceptionPriority := by
  intro w s
  cases hd : decode w with
  | error x =>
    rw [hostStep_cmd_of_decode_error hd, reportedCode_of_decode_error hd]
    refine ⟨fun t h => ?_, fun _ => rfl⟩
    cases h
    rfl
  | ok i =>
    rw [hostStep_cmd_of_decode hd, reportedCode_of_decode hd]
    refine ⟨fun t h => exec_err h, fun hne => ?_⟩
    cases hc : lenError i s with
    | none => exact absurd (by rw [hc, Option.getD_none]) hne
    | some x => exact exec_of_lenError_some hc

/-- Settles O28: the length check answers a code, which is then all that is set, or the command completes. -/
theorem exceptionsArePrecise : Obligations.ExceptionsArePrecise := by
  intro i s t h
  cases hc : lenError i s with
  | none => exact .inl (exec_err_of_lenError_none hc h)
  | some x =>
    cases (exec_of_lenError_some hc).symm.trans h
    exact .inr rfl

/-! ## The three exceptions on the length (rules R152 to R154) -/

/-- Settles O24: capacity is the first check of both length rules. -/
theorem capacityErrorTaken : Obligations.CapacityErrorTaken := by
  intro i s hi hlt
  obtain ⟨r, hr⟩ := lenError_of_isData hi s
  exact exec_of_lenError_some (hr.trans (checkLen_of_bufMax_lt hlt r))

/-- Settles O25: the length rule of both ECB commands asks for whole blocks. -/
theorem sizeErrorTaken : Obligations.SizeErrorTaken := by
  intro s hmax h8
  have hc := checkLen_wholeBlocks_of_ragged hmax h8
  exact ⟨execEcb_of_checkLen_some hc .dec, execEcb_of_checkLen_some hc .enc⟩

/-- Settles O26: the length rule of both single-block commands asks for one block. -/
theorem contractViolationTaken : Obligations.ContractViolationTaken := by
  intro e s hmax h8
  have hc := checkLen_oneBlock_of_ne_eight hmax h8
  exact ⟨execSingle_of_checkLen_some hc .enc e, execSingle_of_checkLen_some hc .dec e⟩

end Sys2Proof.Machine
end

section

/-! The reset event as a host transaction (70_reset_and_hazards.md, rule R180): `H_RESET` puts every field of the core back
to its value at reset, whatever the state before. -/

namespace Sys2Proof.Machine

/-! ## `H_RESET` (rules R33, R180) -/

theorem hostStep_reset (s : State) : hostStep .reset s = .next s.hReset := rfl

/-- `STATUS` looks at `ERR` and `KV` only, and both are those of the reset state. -/
@[simp] theorem statusReg_hReset (s : State) : statusReg s.hReset = 0x00 :=
  statusReg_resetOf s.cfg

/-- Settles O9: the fields of `hReset`, with no engine valid and nothing listed in the two spaces. -/
theorem hostResetEffect : Obligations.HostResetEffect := by
  intro s
  exact ⟨s.hReset, hostStep_reset s, s.hReset_mkReg, kv_get_resetOf s.cfg, s.hReset_err, statusReg_hReset s,
    s.hReset_len, Memory.read_nil, Memory.read_nil, s.hReset_cfg, s.hReset_pending, s.hReset_reads⟩

end Sys2Proof.Machine
end
